-- ==== Sys2Proof/Word.lean ====
section
/-! DEFINITION. The word type of CORE: everything the machine stores is a byte (spec 00_scope.md R6 `XLEN`, R7;
20_memory.md R51), and the flag register is three bits (R6 `FLEN`). No value is ever read as signed (R7). -/

namespace Sys2Proof

/-- A register, a memory cell, the program counter, an operand: 8 bits, unsigned (R7). -/
abbrev Byte := BitVec 8

/-- The contents of the flag register `FL`: 3 bits (R29). -/
abbrev FlagBits := BitVec 3

end Sys2Proof
end

