-- ==== Sys2Proof/Machine/Flags.lean ====
section
/-! DEFINITION. The flag register's layout (10_state.md R29), the one flag computation of CORE (`CMP`, 41_alu.md R146) and
the two conversions the interrupt mechanism uses (60_exceptions.md R221, 44_control.md R186). -/

namespace Sys2Proof.Machine

/-- Bit 0, `E`: equal (R29). -/
def flagE (fl : FlagBits) : Bool := fl.getLsbD 0

/-- Bit 1, `G`: greater (R29). -/
def flagG (fl : FlagBits) : Bool := fl.getLsbD 1

/-- Bit 2, `L`: less (R29). -/
def flagL (fl : FlagBits) : Bool := fl.getLsbD 2

/-- `{L, G, E}` with `L` in the high bit (R146). -/
def packFlags (l g e : Bool) : FlagBits :=
  BitVec.ofBool l ++ (BitVec.ofBool g ++ BitVec.ofBool e)

/-- What `CMP` leaves in `FL` for the values `p` and `q`, compared as naturals (R146). -/
def compareFlags (p q : Byte) : FlagBits :=
  packFlags (decide (p.toNat < q.toNat)) (decide (q.toNat < p.toNat)) (decide (p.toNat = q.toNat))

/-- `zext_8(FL)`, the byte `00000LGE` that interrupt entry pushes (R221). -/
def flagByte (fl : FlagBits) : Byte := fl.zeroExtend 8

/-- `v & 0b111`, what `IRET` loads into `FL` from a popped byte (R186; the spec's decision D13, log entry 9). -/
def flagsOfByte (v : Byte) : FlagBits := v.truncate 3

end Sys2Proof.Machine
end

