-- ==== Sys2Proof/Machine/Memory.lean ====
section
/-! DEFINITION. The 256-cell memory of CORE (10_state.md R32, 20_memory.md R50) as plain data: the cells that differ from
their reset contents, in one canonical form. The bounds check of R52 is in Ops.lean (`memRead`, `memWrite`); this file is
the storage behind it. -/

namespace Sys2Proof.Machine

/-- Address and byte of every cell that does not hold `Memory.unlisted`, addresses strictly rising (`Memory.wf`). -/
abbrev Memory := List Host.Cell

/-- The number of cells, `MEMSIZE` (R6, R32). -/
def memSize : Nat := 256

/-- What a cell that is not listed holds: 0, the reset value of memory outside the image (R42; the spec's own decision
D6, log entry 5). -/
def Memory.unlisted : Byte := 0#8

/-- The byte stored at an address. -/
def Memory.read : Memory → Nat → Byte
  | [], _ => Memory.unlisted
  | (k, v) :: m, a => if k = a then v else Memory.read m a

/-- The memory without an entry for an address. -/
def Memory.without (m : Memory) (a : Nat) : Memory :=
  m.filter fun c => decide (c.1 ≠ a)

/-- Puts an entry before the first entry of a higher address. -/
def Memory.place (a : Nat) (v : Byte) : Memory → Memory
  | [] => [(a, v)]
  | (k, w) :: m => if a < k then (a, v) :: (k, w) :: m else (k, w) :: Memory.place a v m

/-- Stores a byte (R50); storing what an unlisted cell holds removes the entry, so equal memories are equal lists. -/
def Memory.write (m : Memory) (a : Nat) (v : Byte) : Memory :=
  if v = Memory.unlisted then m.without a else Memory.place a v (m.without a)

/-- Addresses from `lo` on, strictly rising, inside memory, and no entry equal to what an unlisted cell holds. -/
def Memory.wfFrom (lo : Nat) : Memory → Bool
  | [] => true
  | (k, v) :: m => decide (lo ≤ k) && decide (k < memSize) && decide (v ≠ Memory.unlisted) && Memory.wfFrom (k + 1) m

/-- The canonical form. -/
def Memory.wf (m : Memory) : Bool := Memory.wfFrom 0 m

/-- Memory after the loader has placed an image from an address on, in file order (R42, R252). -/
def Memory.load (image : List Byte) (start : Nat) (m : Memory) : Memory :=
  match image with
  | [] => m
  | v :: rest => Memory.load rest (start + 1) (m.write start v)

end Sys2Proof.Machine
end

