-- ==== Sys2Proof/Config.lean ====
section
/-! DEFINITION. What an implementation of CORE fixes (00_scope.md R6, rows marked "parameter"): the initial stack
pointer, the vector base, the keyboard cell and the opcode assignment; and the free values: the inputs the environment
draws (10_state.md R38). The machine takes its configuration from `State.env` (Machine/State.lean), so a claim about every
state is a claim about every configuration. The default values stand in Decode.lean (`defaultOpc`) and
Machine/Params.lean (`Config.core`), where a later audit can mend them. -/

namespace Sys2Proof

/-- The 27 instructions by name, the domain of the parameter `OPC` (30_encoding.md R86). -/
inductive Mnemonic where
  | add | sub | mul | div | inc | dec | cmp | and | not | or | xor | shl | shr
  | hlt | ret | iret | push | pop | prn | pra | call | jmp | jeq | jne | ldi | ld | st
  deriving DecidableEq, Repr

/-- An opcode assignment as plain data: the opcode byte of each instruction (R86). -/
structure OpcTable where
  add : Byte
  sub : Byte
  mul : Byte
  div : Byte
  inc : Byte
  dec : Byte
  cmp : Byte
  and : Byte
  not : Byte
  or : Byte
  xor : Byte
  shl : Byte
  shr : Byte
  hlt : Byte
  ret : Byte
  iret : Byte
  push : Byte
  pop : Byte
  prn : Byte
  pra : Byte
  call : Byte
  jmp : Byte
  jeq : Byte
  jne : Byte
  ldi : Byte
  ld : Byte
  st : Byte
  deriving DecidableEq, Repr

/-- The parameters of R6 that a model takes as named configuration fields. -/
structure Config where
  /-- `SP_INIT`: reset value of `x[7]`, and the bound at which a pop faults (R6, R27, R171). -/
  spInit : Byte
  /-- `VEC_BASE`: address of vector slot 0; the slot of line `i` is at `VEC_BASE + i` (R6, R60). -/
  vecBase : Byte
  /-- `KEY_ADDR`: the memory cell the keyboard source writes (R6, R212). -/
  keyAddr : Byte
  /-- `OPC`: the opcode byte of each instruction (R6, R86). -/
  opcodes : OpcTable
  deriving DecidableEq, Repr

/-- A free value: the `tick` the environment draws for the cycle a counter names (R38: "a free input (a draw), not ...
a function of the state"). It has no body, so nothing can be proved of any draw (log entry 6). -/
opaque Config.freeTick : Nat → Bool

/-- A free value: the `key` the environment draws for the cycle a counter names (R38; log entry 6). -/
opaque Config.freeKey : Nat → Option Byte

end Sys2Proof
end

