-- ==== Sys2Proof/Syntax.lean ====
section
/-! DEFINITION. The instructions of CORE, one constructor per row of spec/opcode_table.json (30_encoding.md R86).
An operand is a whole byte (R84): a register operand keeps all its values 0..255, because a value above 7 is a legal
encoding that raises `OutOfRange` only when the register is accessed (R22, R84 (a)). Bytes beyond the operand count are
no part of an instruction (R84 (d)). -/

namespace Sys2Proof

/-- An instruction with its operand bytes: `a` and `b` are operand A and operand B, `imm` and `n` are operand B of
the formats RI and RS (R83). -/
inductive Instr where
  /-- R134, format RR. -/
  | add (a b : Byte)
  /-- R135, format RR. -/
  | sub (a b : Byte)
  /-- R136, format RR. -/
  | mul (a b : Byte)
  /-- R137, format RR. -/
  | div (a b : Byte)
  /-- R144, format R. -/
  | inc (a : Byte)
  /-- R145, format R. -/
  | dec (a : Byte)
  /-- R146, format RR. -/
  | cmp (a b : Byte)
  /-- R138, format RR. -/
  | and (a b : Byte)
  /-- R141, format R. -/
  | not (a : Byte)
  /-- R139, format RR. -/
  | or (a b : Byte)
  /-- R140, format RR. -/
  | xor (a b : Byte)
  /-- R142, format RS: `n` is a literal count, not a register. -/
  | shl (a n : Byte)
  /-- R143, format RS: `n` is a literal count, not a register. -/
  | shr (a n : Byte)
  /-- R185, format N. -/
  | hlt
  /-- R181, format N. -/
  | ret
  /-- R186, format N. -/
  | iret
  /-- R172, format R. -/
  | push (a : Byte)
  /-- R173, format R. -/
  | pop (a : Byte)
  /-- R163, format R. -/
  | prn (a : Byte)
  /-- R164, format R. -/
  | pra (a : Byte)
  /-- R180, format R. -/
  | call (a : Byte)
  /-- R182, format R. -/
  | jmp (a : Byte)
  /-- R183, format R. -/
  | jeq (a : Byte)
  /-- R184, format R. -/
  | jne (a : Byte)
  /-- R160, format RI: `imm` is an unsigned literal byte. -/
  | ldi (a imm : Byte)
  /-- R161, format RR: `a` is the destination, `b` holds the address. -/
  | ld (a b : Byte)
  /-- R162, format RR: `a` holds the address, `b` is the source. -/
  | st (a b : Byte)
  deriving DecidableEq, Repr

end Sys2Proof
end

