-- ==== Sys2Proof/WellFormed.lean ====
section
/-! DEFINITION. Well-formed instructions: every register operand names one of the eight registers (30_encoding.md R83
"register index; legal values 0..7"). An instruction that is not well formed still decodes and still runs: it raises
`OutOfRange` when, and only if, it accesses the register (R84 (a), R133, R183). -/

namespace Sys2Proof

/-- The operand bytes of an instruction that its format uses as register indices (R83); the immediate of `LDI` and the
count of `SHL`/`SHR` are not among them (R84 (b), (c)). -/
def Instr.regOperands : Instr → List Byte
  | .add a b => [a, b]
  | .sub a b => [a, b]
  | .mul a b => [a, b]
  | .div a b => [a, b]
  | .inc a => [a]
  | .dec a => [a]
  | .cmp a b => [a, b]
  | .and a b => [a, b]
  | .not a => [a]
  | .or a b => [a, b]
  | .xor a b => [a, b]
  | .shl a _ => [a]
  | .shr a _ => [a]
  | .hlt => []
  | .ret => []
  | .iret => []
  | .push a => [a]
  | .pop a => [a]
  | .prn a => [a]
  | .pra a => [a]
  | .call a => [a]
  | .jmp a => [a]
  | .jeq a => [a]
  | .jne a => [a]
  | .ldi a _ => [a]
  | .ld a b => [a, b]
  | .st a b => [a, b]

/-- Every register operand is an index 0..7 (R22, R83). -/
def Instr.wellFormed (i : Instr) : Bool :=
  i.regOperands.all fun r => decide (r.toNat < 8)

end Sys2Proof
end

