-- ==== Sys2Proof/Decode.lean ====
section
/-! DEFINITION. The encoding of CORE (spec/30_encoding.md): the fields of an opcode byte (R81), the opcode assignment
(R86), decoding by exact match with rejection by name (R85, R88), and the encoder written from the same table. -/

namespace Sys2Proof

/-! ## Fields of the opcode byte (R81) -/

/-- `nops`, bits 7:6: how many operand bytes belong to the instruction, "`(opcode >> 6) & 0b11`". -/
def opNops (op : Byte) : Nat := ((op >>> 6) &&& 3#8).toNat

/-- `isalu`, bit 5: the opcode is routed to the ALU. -/
def opIsAlu (op : Byte) : Bool := op.getLsbD 5

/-- `setspc`, bit 4: the instruction sets `PC` itself, the engine does not advance it. -/
def opSetsPc (op : Byte) : Bool := op.getLsbD 4

/-! ## What the tables of R86 say of each instruction -/

/-- Column `nops` of R86: the number of operand bytes. -/
def Mnemonic.operands : Mnemonic → Nat
  | .hlt => 0
  | .ret => 0
  | .iret => 0
  | .inc => 1
  | .dec => 1
  | .not => 1
  | .push => 1
  | .pop => 1
  | .prn => 1
  | .pra => 1
  | .call => 1
  | .jmp => 1
  | .jeq => 1
  | .jne => 1
  | .add => 2
  | .sub => 2
  | .mul => 2
  | .div => 2
  | .cmp => 2
  | .and => 2
  | .or => 2
  | .xor => 2
  | .shl => 2
  | .shr => 2
  | .ldi => 2
  | .ld => 2
  | .st => 2

/-- `ALU_TABLE` (R86): the thirteen operations with `isalu` = 1. -/
def aluTable : List Mnemonic :=
  [.add, .sub, .mul, .div, .inc, .dec, .cmp, .and, .not, .or, .xor, .shl, .shr]

/-- `MAIN_TABLE` (R86): the fourteen instructions with `isalu` = 0. -/
def mainTable : List Mnemonic :=
  [.hlt, .ret, .iret, .push, .pop, .prn, .pra, .call, .jmp, .jeq, .jne, .ldi, .ld, .st]

/-- The instructions that set `PC` themselves: "`JMP`, `CALL`, `RET`, `JEQ`, `JNE`, `IRET`" (R87). -/
def pcSetters : List Mnemonic := [.jmp, .call, .ret, .jeq, .jne, .iret]

/-- The default opcode assignment `OPC` (R86). The values of `LDI`, `PRN`, `HLT` are the source's own; the others are
the spec's default for the parameter (log entry 1). -/
def defaultOpc : Mnemonic → Byte
  | .add => 0xA0#8
  | .sub => 0xA1#8
  | .mul => 0xA2#8
  | .div => 0xA3#8
  | .inc => 0x65#8
  | .dec => 0x66#8
  | .cmp => 0xA7#8
  | .and => 0xA8#8
  | .not => 0x69#8
  | .or => 0xAA#8
  | .xor => 0xAB#8
  | .shl => 0xAC#8
  | .shr => 0xAD#8
  | .hlt => 0x01#8
  | .ret => 0x11#8
  | .iret => 0x13#8
  | .push => 0x45#8
  | .pop => 0x46#8
  | .prn => 0x47#8
  | .pra => 0x48#8
  | .call => 0x50#8
  | .jmp => 0x54#8
  | .jeq => 0x55#8
  | .jne => 0x56#8
  | .ldi => 0x82#8
  | .ld => 0x83#8
  | .st => 0x84#8

/-- The opcode byte a table gives an instruction. -/
def OpcTable.byte (t : OpcTable) : Mnemonic → Byte
  | .add => t.add
  | .sub => t.sub
  | .mul => t.mul
  | .div => t.div
  | .inc => t.inc
  | .dec => t.dec
  | .cmp => t.cmp
  | .and => t.and
  | .not => t.not
  | .or => t.or
  | .xor => t.xor
  | .shl => t.shl
  | .shr => t.shr
  | .hlt => t.hlt
  | .ret => t.ret
  | .iret => t.iret
  | .push => t.push
  | .pop => t.pop
  | .prn => t.prn
  | .pra => t.pra
  | .call => t.call
  | .jmp => t.jmp
  | .jeq => t.jeq
  | .jne => t.jne
  | .ldi => t.ldi
  | .ld => t.ld
  | .st => t.st

/-- The table of an opcode assignment: every assignment has one (`OpcTable.byte_of`, Laws/Config.lean). -/
def OpcTable.of (f : Mnemonic → Byte) : OpcTable where
  add := f .add
  sub := f .sub
  mul := f .mul
  div := f .div
  inc := f .inc
  dec := f .dec
  cmp := f .cmp
  and := f .and
  not := f .not
  or := f .or
  xor := f .xor
  shl := f .shl
  shr := f .shr
  hlt := f .hlt
  ret := f .ret
  iret := f .iret
  push := f .push
  pop := f .pop
  prn := f .prn
  pra := f .pra
  call := f .call
  jmp := f .jmp
  jeq := f .jeq
  jne := f .jne
  ldi := f .ldi
  ld := f .ld
  st := f .st

/-- The parameter `OPC` of a configuration (R6). -/
def Config.opc (c : Config) : Mnemonic → Byte := c.opcodes.byte

/-- What R6 asks of a legal opcode assignment: injective, every value obeying the bit-field laws of R81 to R83 (as R87
checks them row by row), and the three values the source fixes. -/
structure OpcLegal (opc : Mnemonic → Byte) : Prop where
  injective : ∀ m n, opc m = opc n → m = n
  operands : ∀ m, opNops (opc m) = m.operands
  alu : ∀ m, opIsAlu (opc m) = decide (m ∈ aluTable)
  setsPc : ∀ m, opSetsPc (opc m) = decide (m ∈ pcSetters)
  ldi : opc .ldi = 0x82#8
  prn : opc .prn = 0x47#8
  hlt : opc .hlt = 0x01#8

/-- A legal configuration (R6, the constraints after the parameter table). -/
structure Config.Legal (c : Config) : Prop where
  spPositive : 0 < c.spInit.toNat
  vectorsInMemory : c.vecBase.toNat + 7 ≤ 255
  keyIsNoVector : ∀ i < 8, c.keyAddr.toNat ≠ c.vecBase.toNat + i
  stackBelowVectors : c.spInit.toNat ≤ c.vecBase.toNat
  stackBelowKey : c.spInit.toNat ≤ c.keyAddr.toNat
  opcLegal : OpcLegal c.opc

/-! ## Decoding (R85) -/

/-- The two ways an opcode byte is illegal (R85, R88, R201, R202); each carries the opcode byte. -/
inductive DecodeError where
  /-- Bit 5 is clear and the byte is not in `MAIN_TABLE`. -/
  | unsupportedInstruction (op : Byte)
  /-- Bit 5 is set and the byte is not in `ALU_TABLE`. -/
  | unsupportedOperation (op : Byte)
  deriving DecidableEq, Repr

/-- `decode(op)` of R85: the exact value of the whole opcode byte selects the operation, bit 5 selects the table. -/
def decodeOpcode (opc : Mnemonic → Byte) (op : Byte) : Except DecodeError Mnemonic :=
  if opIsAlu op then
    match aluTable.find? fun m => opc m == op with
    | some m => .ok m
    | none => .error (.unsupportedOperation op)
  else
    match mainTable.find? fun m => opc m == op with
    | some m => .ok m
    | none => .error (.unsupportedInstruction op)

/-- Hands the operand bytes to the selected instruction, uninterpreted (R83, R84, R113). -/
def Mnemonic.withOperands : Mnemonic → Byte → Byte → Instr
  | .add, a, b => .add a b
  | .sub, a, b => .sub a b
  | .mul, a, b => .mul a b
  | .div, a, b => .div a b
  | .inc, a, _ => .inc a
  | .dec, a, _ => .dec a
  | .cmp, a, b => .cmp a b
  | .and, a, b => .and a b
  | .not, a, _ => .not a
  | .or, a, b => .or a b
  | .xor, a, b => .xor a b
  | .shl, a, b => .shl a b
  | .shr, a, b => .shr a b
  | .hlt, _, _ => .hlt
  | .ret, _, _ => .ret
  | .iret, _, _ => .iret
  | .push, a, _ => .push a
  | .pop, a, _ => .pop a
  | .prn, a, _ => .prn a
  | .pra, a, _ => .pra a
  | .call, a, _ => .call a
  | .jmp, a, _ => .jmp a
  | .jeq, a, _ => .jeq a
  | .jne, a, _ => .jne a
  | .ldi, a, b => .ldi a b
  | .ld, a, b => .ld a b
  | .st, a, b => .st a b

/-- Decodes the fetched triple (opcode, operand A, operand B) of R80: total, the operand bytes play no part in
legality (R88). -/
def decode (opc : Mnemonic → Byte) (op a b : Byte) : Except DecodeError Instr :=
  match decodeOpcode opc op with
  | .ok m => .ok (m.withOperands a b)
  | .error e => .error e

/-! ## Encoding (R83, R86) -/

/-- The row of R86 an instruction belongs to. -/
def Instr.mnemonic : Instr → Mnemonic
  | .add _ _ => .add
  | .sub _ _ => .sub
  | .mul _ _ => .mul
  | .div _ _ => .div
  | .inc _ => .inc
  | .dec _ => .dec
  | .cmp _ _ => .cmp
  | .and _ _ => .and
  | .not _ => .not
  | .or _ _ => .or
  | .xor _ _ => .xor
  | .shl _ _ => .shl
  | .shr _ _ => .shr
  | .hlt => .hlt
  | .ret => .ret
  | .iret => .iret
  | .push _ => .push
  | .pop _ => .pop
  | .prn _ => .prn
  | .pra _ => .pra
  | .call _ => .call
  | .jmp _ => .jmp
  | .jeq _ => .jeq
  | .jne _ => .jne
  | .ldi _ _ => .ldi
  | .ld _ _ => .ld
  | .st _ _ => .st

/-- The operand bytes of an instruction in the order of its format (R83). -/
def Instr.operandBytes : Instr → List Byte
  | .add a b => [a, b]
  | .sub a b => [a, b]
  | .mul a b => [a, b]
  | .div a b => [a, b]
  | .inc a => [a]
  | .dec a => [a]
  | .cmp a b => [a, b]
  | .and a b => [a, b]
  | .not a => [a]
  | .or a b => [a, b]
  | .xor a b => [a, b]
  | .shl a n => [a, n]
  | .shr a n => [a, n]
  | .hlt => []
  | .ret => []
  | .iret => []
  | .push a => [a]
  | .pop a => [a]
  | .prn a => [a]
  | .pra a => [a]
  | .call a => [a]
  | .jmp a => [a]
  | .jeq a => [a]
  | .jne a => [a]
  | .ldi a imm => [a, imm]
  | .ld a b => [a, b]
  | .st a b => [a, b]

/-- The bytes of an instruction at ascending addresses: opcode, then the operand bytes (R54, R80). -/
def encode (opc : Mnemonic → Byte) (i : Instr) : List Byte :=
  opc i.mnemonic :: i.operandBytes

/-! ## The host's view of a table word -/

/-- Byte `k` of an instruction whose `nbits` bits are the number `w`, byte 0 the least significant; the bits above
`nbits` are 0. -/
def tableByte (nbits w k : Nat) : Byte := BitVec.ofNat 8 (w % 2 ^ nbits / 2 ^ (8 * k))

/-- The instruction the decoder reads from an instruction whose bits are `w`, numbered as spec/opcode_table.json
numbers them (byte 0 in bits 7..0, byte 1 in bits 15..8, byte 2 in bits 23..16), zeros above `nbits`. -/
def decodeTableWord (nbits w : Nat) : Option Instr :=
  match decode defaultOpc (tableByte nbits w 0) (tableByte nbits w 1) (tableByte nbits w 2) with
  | .ok i => some i
  | .error _ => none

end Sys2Proof
end

