-- ==== Sys2Proof/Machine/Params.lean ====
section
/-! DEFINITION. The parameter values and register reset values of the machine modelled (00_scope.md R6, 10_state.md R27).
They stand here, apart from the types, so that an audit can change a number without touching a rule (R2 (c)). -/

namespace Sys2Proof

/-- The default configuration of R6: `SP_INIT` = 0x74, `VEC_BASE` = 0xF8, `KEY_ADDR` = 0xF4, `OPC` as in R86
(log entries 1, 2, 3, 4). It is the configuration of `State.reset` only; the machine takes
its configuration from the state (log entry 25). -/
def Config.core : Config where
  spInit := 0x74#8
  vecBase := 0xF8#8
  keyAddr := 0xF4#8
  opcodes := OpcTable.of defaultOpc

namespace Machine

/-- The registers after reset (R27): `x[7]` = `SP_INIT`, `x[0]`..`x[6]` = 0 (the spec's decision D6, log entry 5). -/
def resetRegs (c : Config) : Vector Byte 8 :=
  #v[0#8, 0#8, 0#8, 0#8, 0#8, 0#8, 0#8, c.spInit]

/-- The program counter after reset, the entry point (R42, R60). -/
def resetPc : Byte := 0#8

/-- The flag register after reset (R42, D6). -/
def resetFl : FlagBits := 0#3

end Machine

end Sys2Proof
end

