-- ==== Sys2Proof/Machine/State.lean ====
section
/-! DEFINITION. The state of CORE as plain data (spec/10_state.md), the reasons a cycle ends in a fault (60_exceptions.md
R200), and the state after reset (R42). The spec's tuple is `(x, PC, FL, mem, status, console)` (R122); `env` is the model's
own field: the configuration (R6) and the environment's per-cycle inputs (R38) still to come. -/

namespace Sys2Proof.Machine

/-- Which access was out of range, the `info` of an `OutOfRange` fault (R200). -/
inductive Location where
  /-- A memory address above 255; only operand fetch can meet one (R53). -/
  | mem (a : Nat)
  /-- An operand byte above 7 used as a register index (R8, R22). -/
  | reg (i : Byte)
  /-- A push with `x[7] = 0` (R170). -/
  | stackPush
  /-- A pop with `x[7] >= SP_INIT` (R171). -/
  | stackPop
  deriving DecidableEq, Repr

/-- The four faults of CORE with their `info` (R9, R200). A fault is an architectural event whose entry the spec
describes (R205): the cycle that raises it ends in a NEXT state whose `status` is `faulted f`, with everything else "left
as-is for inspection" (R207). So no step of this model answers `Host.Outcome.fault`; this type is also the type of the
`info` that `status` holds. Safe: the machine stops exactly where the spec says it stops, and the state is kept. -/
inductive Fault where
  /-- Raised by the dispatcher: opcode with bit 5 clear, not in `MAIN_TABLE` (R201). Safe: the spec names the fault. -/
  | unsupportedInstruction (op : Byte)
  /-- Raised by the ALU: opcode with bit 5 set, not in `ALU_TABLE` (R147, R202). Safe: the spec names the fault. -/
  | unsupportedOperation (op : Byte)
  /-- Raised by `DIV` with a zero divisor; `pc` is the address of the `DIV` (R137, R203). Safe: the spec names it. -/
  | divisionByZero (pc : Byte)
  /-- Raised by fetch, by a register access, by a push or by a pop (R204). Safe: the spec names the fault. -/
  | outOfRange (loc : Location)
  deriving DecidableEq, Repr

/-- Why a step has no meaning. -/
inductive Refusal where
  /-- Raised by `exec` for an instruction that has no meaning yet: by none, every arm of `exec` has one. Safe: the model
  stops where the hardware goes on. -/
  | notModelled (mnemonic : String)
  deriving DecidableEq, Repr

/-- `status` (R34): running, stopped by `HLT`, or stopped by a fault. -/
inductive Status where
  | running
  | halted
  | faulted (f : Fault)
  deriving DecidableEq, Repr

/-- A console event (R40). -/
inductive Event where
  /-- `Dec(v)`, emitted by `PRN`: the decimal value followed by a newline. -/
  | dec (v : Byte)
  /-- `Chr(v)`, emitted by `PRA`: the character with code point `v`. -/
  | chr (v : Byte)
  deriving DecidableEq, Repr

/-- The inputs the environment supplies at the start of one cycle (R38; the spec's decisions D1, D28, D29, log entry 23). -/
structure Input where
  /-- The timer source reports a new second. -/
  tick : Bool
  /-- The code of the key that is available, if one is. -/
  key : Option Byte
  deriving DecidableEq, Repr

/-- What surrounds the machine in a run: its configuration, which no step changes, and the inputs the environment will
supply. It is the model's own, no state of the spec (log entries 6, 25): it stands in State because the host's `step` has no
other argument; `stepWith` (Cycle.lean) has the arguments R122 names. -/
structure Env where
  /-- The parameters of R6, any configuration. -/
  config : Config
  /-- Inputs of the cycles to come that are listed, first the next cycle's. -/
  inputs : List Input
  /-- The number of cycles whose inputs have been supplied: it names the draw `Config.freeTick`, `Config.freeKey` of a cycle
  for which none is listed. -/
  drawn : Nat
  deriving DecidableEq, Repr

/-- The state of CORE: the tuple `(x, PC, FL, mem, status, console)` of R122, and the surroundings. -/
structure State where
  /-- The register file `x[0]`..`x[7]` (R20). -/
  regs : Vector Byte 8
  /-- The program counter `PC` (R28). -/
  pc : Byte
  /-- The flag register `FL`: bit 0 equal, bit 1 greater, bit 2 less (R29). -/
  fl : FlagBits
  /-- The memory `mem[0..255]` (R32). -/
  mem : Memory
  /-- The run status (R34). -/
  status : Status
  /-- The console output, oldest event first (R40). -/
  console : List Event
  /-- Configuration and inputs to come, the model's own field. -/
  env : Env
  deriving DecidableEq, Repr

/-- Reset of a machine with a configuration, with an image (R39, R42, R250), some inputs listed. -/
def State.boot (c : Config) (image : List Byte) (inputs : List Input) : State where
  regs := resetRegs c
  pc := resetPc
  fl := resetFl
  mem := Memory.load image 0 []
  status := .running
  console := []
  env := { config := c, inputs := inputs, drawn := 0 }

/-- The machine of the default configuration right after reset with the empty image (R252: the empty image is legal);
every input is a free draw (log entries 6, 22, 25). -/
def State.reset : State := State.boot Config.core [] []

end Sys2Proof.Machine
end

