-- ==== Sys2Proof/Machine/Ops.lean ====
section
/-! DEFINITION. The operations all instructions and the interrupt controller share: sequencing with `raise` (00_scope.md
R9, R10), taking a fault (60_exceptions.md R205), register access (R8, R22), memory access (20_memory.md R50 to R52), the
stack primitives (43_stack.md R170, R171) and console output (R40). -/

namespace Sys2Proof.Machine

/-! ## Sequencing -/

/-- The result of a part of a cycle: it finished with a value, or it raised a fault; both carry the state as written so
far, since "state already written in the cycle stays written" (R9, R123). -/
inductive Res (α : Type) where
  | ok (v : α) (s : State)
  | raised (f : Fault) (s : State)
  deriving Repr

/-- Goes on with the next part unless a fault was raised (R9: "no later sub-operation of the cycle happens"), so the first
fault met is the one reported (R206; the spec's decision D14, log entry 19). -/
def Res.bind {α β : Type} (r : Res α) (k : α → State → Res β) : Res β :=
  match r with
  | .ok v s => k v s
  | .raised f s => .raised f s

/-- Taking a fault (R205): `status <- Faulted(F, info)` and nothing else; nothing is saved, no vector is consulted, `PC`
is not changed (log entries 16, 21). There is no return from a fault; the return from an interrupt is `execIret` (Control.lean). -/
def takeFault (f : Fault) (s : State) : State := { s with status := .faulted f }

/-- The outcome of an instruction: its final state, or the state with the fault it raised taken. -/
def Res.outcome (r : Res Unit) : Host.Outcome State Fault Refusal :=
  match r with
  | .ok _ s => .next s
  | .raised f s => .next (takeFault f s)

/-! ## Registers (R8, R20 to R25) -/

/-- The index of the stack pointer `SP` (R6, R23). -/
abbrev SP : Fin 8 := 7

/-- The index of the interrupt-pending register `IS` (R6, R24). -/
abbrev IS : Fin 8 := 6

/-- The index of the interrupt-mask register `IM` (R6, R25). -/
abbrev IM : Fin 8 := 5

/-- `x[i]` for an index that exists. No register is hardwired (R21). -/
def State.reg (s : State) (i : Fin 8) : Byte := s.regs[i]

/-- `x[i] <- v` for an index that exists. -/
def State.setReg (s : State) (i : Fin 8) (v : Byte) : State := { s with regs := s.regs.set i v }

/-- The state with another memory. -/
def State.setMem (s : State) (m : Memory) : State := { s with mem := m }

/-- The check of R8 and R22: an operand byte is a register index if it is at most 7, else it raises `OutOfRange(reg i)`
and nothing changes. -/
def checkReg (i : Byte) (s : State) : Res (Fin 8) :=
  if h : i.toNat < 8 then .ok ⟨i.toNat, h⟩ s else .raised (.outOfRange (.reg i)) s

/-- Reads the register an operand byte names. -/
def readReg (i : Byte) (s : State) : Res Byte :=
  (checkReg i s).bind fun r s => .ok (s.reg r) s

/-- Writes the register an operand byte names. -/
def writeReg (i : Byte) (v : Byte) (s : State) : Res Unit :=
  (checkReg i s).bind fun r s => .ok () (s.setReg r v)

/-! ## Memory (R50 to R52) -/

/-- `MemRead(a)`: one byte; an address above 255 raises `OutOfRange(mem a)` and accesses nothing. -/
def memRead (a : Nat) (s : State) : Res Byte :=
  if a < memSize then .ok (s.mem.read a) s else .raised (.outOfRange (.mem a)) s

/-- `MemWrite(a, v)`: one byte; an address above 255 raises `OutOfRange(mem a)` and accesses nothing. -/
def memWrite (a : Nat) (v : Byte) (s : State) : Res Unit :=
  if a < memSize then .ok () (s.setMem (s.mem.write a v)) else .raised (.outOfRange (.mem a)) s

/-! ## The stack (R170, R171) -/

/-- The first half of `Push`: the bound check (the spec's decision D11, log entry 18), then `x[7] <- x[7] - 1`. -/
def stackDown (s : State) : Res Unit :=
  if s.reg SP = 0#8 then .raised (.outOfRange .stackPush) s else .ok () (s.setReg SP (s.reg SP - 1#8))

/-- `Push(v)` (R170). -/
def push (v : Byte) (s : State) : Res Unit :=
  (stackDown s).bind fun _ s => memWrite (s.reg SP).toNat v s

/-- The first half of `Pop`: the bound check against the constant `SP_INIT` (D11, log entry 18), then the read of the top
byte. -/
def stackTop (c : Config) (s : State) : Res Byte :=
  if c.spInit.toNat ≤ (s.reg SP).toNat then .raised (.outOfRange .stackPop) s
  else memRead (s.reg SP).toNat s

/-- The second half of `Pop`: `x[7] <- (x[7] + 1) mod 256`. -/
def stackUp (s : State) : State := s.setReg SP (s.reg SP + 1#8)

/-- `Pop()` (R171). -/
def pop (c : Config) (s : State) : Res Byte :=
  (stackTop c s).bind fun v s => .ok v (stackUp s)

/-- `Push(x[r])` for each register of a list in order (R221). -/
def pushRegs : List (Fin 8) → State → Res Unit
  | [], s => .ok () s
  | r :: rs, s => (push (s.reg r) s).bind fun _ s => pushRegs rs s

/-- `x[r] <- Pop()` for each register of a list in order (R186). -/
def popRegs (c : Config) : List (Fin 8) → State → Res Unit
  | [], s => .ok () s
  | r :: rs, s => (pop c s).bind fun v s => popRegs c rs (s.setReg r v)

/-! ## Console and program counter -/

/-- `Emit(e)`: appends an event to the console (R40). -/
def emit (e : Event) (s : State) : State := { s with console := s.console ++ [e] }

/-- `PC <- v`. -/
def setPc (v : Byte) (s : State) : State := { s with pc := v }

/-- `FL <- v`. -/
def setFl (v : FlagBits) (s : State) : State := { s with fl := v }

/-- `status <- Halted`. -/
def halt (s : State) : State := { s with status := .halted }

end Sys2Proof.Machine
end

