-- ==== Sys2Proof/Machine/Operands.lean ====
section
/-! DEFINITION. The operand forms of CORE (30_encoding.md R83, R84; 42_data_io.md R165): register direct, two registers,
register with a literal, register indirect. Each form checks its register operands in the order the instruction reads
them, and no byte that is not a register index (41_alu.md R133). -/

namespace Sys2Proof.Machine

/-- Forms RR of the ALU (R133): `x[a] <- f x[a] x[b]`, `a` read before `b`, both before the write. -/
def onTwoRegs (f : Byte → Byte → Byte) (a b : Byte) (s : State) : Res Unit :=
  (readReg a s).bind fun p s => (readReg b s).bind fun q s => writeReg a (f p q) s

/-- Form R of the ALU: `x[a] <- f x[a]`; operand B is not looked at. -/
def onOneReg (f : Byte → Byte) (a : Byte) (s : State) : Res Unit :=
  (readReg a s).bind fun p s => writeReg a (f p) s

/-- Form RS: `x[a] <- f x[a] n`, the count `n` a literal 0..255 that is never a register index (R84 (c)). -/
def onRegAndCount (f : Byte → Nat → Byte) (a n : Byte) (s : State) : Res Unit :=
  (readReg a s).bind fun p s => writeReg a (f p n.toNat) s

/-- Register-indirect load: the effective address is the whole value of the address register (R165). -/
def loadThrough (b : Byte) (s : State) : Res Byte :=
  (readReg b s).bind fun addr s => memRead addr.toNat s

/-- A jump to the address a register holds (R187). -/
def jumpTo (a : Byte) (s : State) : Res Unit :=
  (readReg a s).bind fun target s => .ok () (setPc target s)

/-- The step over a two-byte instruction that sets `PC` itself and does not jump: `PC <- (PC + 2) mod 256` (R118). -/
def skipTwo (s : State) : Res Unit := .ok () (setPc (s.pc + 2#8) s)

end Sys2Proof.Machine
end

