-- ==== Sys2Proof/Machine/Alu.lean ====
section
/-! DEFINITION. The ALU family (spec/41_alu.md): ADD SUB MUL DIV AND OR XOR NOT SHL SHR INC DEC CMP. Results are unsigned
bytes modulo 256 (R131); no instruction but `CMP` writes `FL` (R30). `PC` is advanced by the engine (Cycle.lean, R118). -/

namespace Sys2Proof.Machine

/-- `p // q`, the floor of the quotient (R132); `DIV` never asks for it with `q = 0`. -/
def quotient (p q : Byte) : Byte := BitVec.ofNat 8 (p.toNat / q.toNat)

/-- `(p << n) mod 256`; a count of 8 or more gives 0 (R142; the spec's decision D17, log entry 10). -/
def shiftLeft (p : Byte) (n : Nat) : Byte := p <<< n

/-- `p >> n`, zeros entering at bit 7; a count of 8 or more gives 0 (R143; D17). -/
def shiftRight (p : Byte) (n : Nat) : Byte := p >>> n

/-- `ADD Ra, Rb` (R134). -/
def execAdd (a b : Byte) (s : State) : Host.Outcome State Fault Refusal :=
  (onTwoRegs (fun p q => p + q) a b s).outcome

/-- `SUB Ra, Rb` (R135). -/
def execSub (a b : Byte) (s : State) : Host.Outcome State Fault Refusal :=
  (onTwoRegs (fun p q => p - q) a b s).outcome

/-- `MUL Ra, Rb` (R136): the low byte of the product. -/
def execMul (a b : Byte) (s : State) : Host.Outcome State Fault Refusal :=
  (onTwoRegs (fun p q => p * q) a b s).outcome

/-- `DIV Ra, Rb` (R137): both register checks come before the zero check (R133, R206). -/
def execDiv (a b : Byte) (s : State) : Host.Outcome State Fault Refusal :=
  Res.outcome <|
    (readReg a s).bind fun p s => (readReg b s).bind fun q s =>
      if q = 0#8 then .raised (.divisionByZero s.pc) s else writeReg a (quotient p q) s

/-- `AND Ra, Rb` (R138). -/
def execAnd (a b : Byte) (s : State) : Host.Outcome State Fault Refusal :=
  (onTwoRegs (fun p q => p &&& q) a b s).outcome

/-- `OR Ra, Rb` (R139). -/
def execOr (a b : Byte) (s : State) : Host.Outcome State Fault Refusal :=
  (onTwoRegs (fun p q => p ||| q) a b s).outcome

/-- `XOR Ra, Rb` (R140). -/
def execXor (a b : Byte) (s : State) : Host.Outcome State Fault Refusal :=
  (onTwoRegs (fun p q => p ^^^ q) a b s).outcome

/-- `NOT Ra` (R141). -/
def execNot (a : Byte) (s : State) : Host.Outcome State Fault Refusal :=
  (onOneReg (fun p => ~~~p) a s).outcome

/-- `SHL Ra, n` (R142). -/
def execShl (a n : Byte) (s : State) : Host.Outcome State Fault Refusal :=
  (onRegAndCount shiftLeft a n s).outcome

/-- `SHR Ra, n` (R143). -/
def execShr (a n : Byte) (s : State) : Host.Outcome State Fault Refusal :=
  (onRegAndCount shiftRight a n s).outcome

/-- `INC Ra` (R144). -/
def execInc (a : Byte) (s : State) : Host.Outcome State Fault Refusal :=
  (onOneReg (fun p => p + 1#8) a s).outcome

/-- `DEC Ra` (R145). -/
def execDec (a : Byte) (s : State) : Host.Outcome State Fault Refusal :=
  (onOneReg (fun p => p - 1#8) a s).outcome

/-- `CMP Ra, Rb` (R146): writes all three flags and no register. -/
def execCmp (a b : Byte) (s : State) : Host.Outcome State Fault Refusal :=
  Res.outcome <|
    (readReg a s).bind fun p s => (readReg b s).bind fun q s => .ok () (setFl (compareFlags p q) s)

end Sys2Proof.Machine
end

