-- ==== Sys2Proof/Machine/Control.lean ====
section
/-! DEFINITION. Control transfer and system instructions (spec/44_control.md): CALL RET JMP JEQ JNE HLT IRET. All but
`HLT` assign `PC` themselves on every path (R118); `HLT` is advanced over by the engine. -/

namespace Sys2Proof.Machine

/-- `CALL Ra` (R180): the register check, the push of the return address `(PC + 2) mod 256`, then the read of the
target (order by the spec's decision D12, log entry 8). -/
def execCall (a : Byte) (s : State) : Host.Outcome State Fault Refusal :=
  Res.outcome <|
    (checkReg a s).bind fun r s => (push (s.pc + 2#8) s).bind fun _ s => .ok () (setPc (s.reg r) s)

/-- `RET` (R181). -/
def execRet (s : State) : Host.Outcome State Fault Refusal :=
  Res.outcome <| (pop s.env.config s).bind fun v s => .ok () (setPc v s)

/-- `JMP Ra` (R182). -/
def execJmp (a : Byte) (s : State) : Host.Outcome State Fault Refusal :=
  (jumpTo a s).outcome

/-- `JEQ Ra` (R183): the register is accessed only when the branch is taken (the spec's decision D16, log entry 12). -/
def execJeq (a : Byte) (s : State) : Host.Outcome State Fault Refusal :=
  Res.outcome <| if flagE s.fl then jumpTo a s else skipTwo s

/-- `JNE Ra` (R184): the register is accessed only when the branch is taken (D16, log entry 12). -/
def execJne (a : Byte) (s : State) : Host.Outcome State Fault Refusal :=
  Res.outcome <| if flagE s.fl then skipTwo s else jumpTo a s

/-- `HLT` (R185). -/
def execHlt (s : State) : Host.Outcome State Fault Refusal :=
  .next (halt s)

/-- `IRET` (R186): pops `x[6]`..`x[0]`, then `FL`, then `PC`; after a fault the pops already done stay done (R123). -/
def execIret (s : State) : Host.Outcome State Fault Refusal :=
  Res.outcome <|
    (popRegs s.env.config [6, 5, 4, 3, 2, 1, 0] s).bind fun _ t =>
      (pop s.env.config t).bind fun f t =>
        (pop s.env.config (setFl (flagsOfByte f) t)).bind fun p t => .ok () (setPc p t)

end Sys2Proof.Machine
end

