-- ==== Sys2Proof/Machine/Data.lean ====
section
/-! DEFINITION. Data movement and console output (spec/42_data_io.md): LDI LD ST PRN PRA. None reads or writes `FL`; `PC`
is advanced by the engine (R118). -/

namespace Sys2Proof.Machine

/-- `LDI Ra, imm` (R160). -/
def execLdi (a imm : Byte) (s : State) : Host.Outcome State Fault Refusal :=
  (writeReg a imm s).outcome

/-- `LD Ra, Rb` (R161): the address register `b` is read first; operand roles by the spec's decision D7 (log entry 7). -/
def execLd (a b : Byte) (s : State) : Host.Outcome State Fault Refusal :=
  Res.outcome <| (loadThrough b s).bind fun v s => writeReg a v s

/-- `ST Ra, Rb` (R162): stores `x[b]` at the address in `x[a]`; operand roles by D7 (log entry 7). -/
def execSt (a b : Byte) (s : State) : Host.Outcome State Fault Refusal :=
  Res.outcome <|
    (readReg a s).bind fun addr s => (readReg b s).bind fun v s => memWrite addr.toNat v s

/-- `PRN Ra` (R163). -/
def execPrn (a : Byte) (s : State) : Host.Outcome State Fault Refusal :=
  Res.outcome <| (readReg a s).bind fun v s => .ok () (emit (.dec v) s)

/-- `PRA Ra` (R164). -/
def execPra (a : Byte) (s : State) : Host.Outcome State Fault Refusal :=
  Res.outcome <| (readReg a s).bind fun v s => .ok () (emit (.chr v) s)

end Sys2Proof.Machine
end

