-- ==== Sys2Proof/Machine/Stack.lean ====
section
/-! DEFINITION. The stack instructions (spec/43_stack.md): PUSH POP. The order of their parts is visible only when the
operand is `R7` (the spec's decision D12, log entry 8). `PC` is advanced by the engine (R118). -/

namespace Sys2Proof.Machine

/-- `PUSH Ra` (R172): the register check, the decrement, then the read of `x[a]` and the store. -/
def execPush (a : Byte) (s : State) : Host.Outcome State Fault Refusal :=
  Res.outcome <|
    (checkReg a s).bind fun r s => (stackDown s).bind fun _ s => memWrite (s.reg SP).toNat (s.reg r) s

/-- `POP Ra` (R173): the register check, the bound check and read, the register write, then the increment. -/
def execPop (a : Byte) (s : State) : Host.Outcome State Fault Refusal :=
  Res.outcome <|
    (checkReg a s).bind fun r s => (stackTop s.env.config s).bind fun v s => .ok () (stackUp (s.setReg r v))

end Sys2Proof.Machine
end

