-- ==== Sys2Proof/Machine/Interrupts.lean ====
section
/-! DEFINITION. The interrupt controller (spec/60_exceptions.md Part B): polling, masking, the fixed-priority arbiter,
entry into a handler. The return is `execIret` (Control.lean). There is no in-service latch: every cycle arbitrates
(R226; the spec's decision D15, log entry 11). -/

namespace Sys2Proof.Machine

/-- The eight interrupt lines in the order the arbiter scans them (R214). -/
def irqLines : List (Fin 8) := [0, 1, 2, 3, 4, 5, 6, 7]

/-- The byte with only bit `i` set, `1 << i`. -/
def lineBit (i : Fin 8) : Byte := 1#8 <<< i.val

/-- The timer source (R211): a tick sets bit 0 of `x[6]`, masked or not. -/
def latchTimer (tick : Bool) (s : State) : State :=
  if tick then s.setReg IS (s.reg IS ||| lineBit 0) else s

/-- The keyboard source (R212): a key sets bit 1 of `x[6]` and is written to the cell at `KEY_ADDR`. -/
def latchKey (c : Config) (key : Option Byte) (s : State) : Res Unit :=
  match key with
  | none => .ok () s
  | some k => memWrite c.keyAddr.toNat k (s.setReg IS (s.reg IS ||| lineBit 1))

/-- The lines that can be serviced: pending and enabled, `x[6] & x[5]` (R213). -/
def serviceable (s : State) : Byte := s.reg IS &&& s.reg IM

/-- `Arbiter(m)` (R214): the lowest set bit, if there is one. -/
def arbiter (m : Byte) : Option (Fin 8) := irqLines.find? fun i => m.getLsbD i

/-- `x[6] <- x[6] & ~(1 << i)` (R220). -/
def clearPending (i : Fin 8) (s : State) : State := s.setReg IS (s.reg IS &&& ~~~lineBit i)

/-- The nine pushes of an interrupt entry: `PC`, `FL`, `x[0]`..`x[6]` (R221). -/
def pushContext (s : State) : Res Unit :=
  (push s.pc s).bind fun _ s => (push (flagByte s.fl) s).bind fun _ s => pushRegs [0, 1, 2, 3, 4, 5, 6] s

/-- `Enter(i)` (R220 to R222): clear the pending bit, push the context, load `PC` from the vector slot of the line. -/
def enter (c : Config) (i : Fin 8) (s : State) : Res Unit :=
  (pushContext (clearPending i s)).bind fun _ s =>
    (memRead (c.vecBase.toNat + i.val) s).bind fun h s => .ok () (setPc h s)

/-- Arbitration and at most one entry (R213, R214, R223). -/
def service (c : Config) (s : State) : Res Unit :=
  match arbiter (serviceable s) with
  | none => .ok () s
  | some i => enter c i s

/-- `InterruptController(tick, key)` (R210). -/
def interruptController (c : Config) (inp : Input) (s : State) : Res Unit :=
  (latchKey c inp.key (latchTimer inp.tick s)).bind fun _ s => service c s

end Sys2Proof.Machine
end

