-- ==== Sys2Proof/Machine/Cycle.lean ====
section
/-! DEFINITION. One cycle of the machine (spec/40_cycle.md R110): sample the inputs, interrupt controller, fetch, decode
and execute, `PC` advance. -/

namespace Sys2Proof.Machine

/-- No tick and no key. -/
def quietInput : Input := { tick := false, key := none }

/-- The inputs of the cycle that begins in a state (R38): the next listed ones, or the environment's draw where none is
listed, a free value (log entry 6). -/
def currentInput (s : State) : Input :=
  match s.env.inputs with
  | inp :: _ => inp
  | [] => { tick := Config.freeTick s.env.drawn, key := Config.freeKey s.env.drawn }

/-- The state once the cycle has sampled its inputs: sampled exactly once per cycle (R38). -/
def sampled (s : State) : State :=
  { s with env := { s.env with inputs := s.env.inputs.tail, drawn := s.env.drawn + 1 } }

/-- Step 1 of a cycle (R110): the interrupt controller with the inputs of the cycle. -/
def pollInterrupts (s : State) : Res Unit :=
  interruptController s.env.config (currentInput s) (sampled s)

/-- The three bytes at `PC`, `PC + 1`, `PC + 2` (R80). -/
structure Triple where
  op : Byte
  a : Byte
  b : Byte
  deriving DecidableEq, Repr

/-- Step 2 (R112): the three reads are unconditional and their addresses are not wrapped. -/
def fetch (s : State) : Res Triple :=
  (memRead s.pc.toNat s).bind fun op s =>
    (memRead (s.pc.toNat + 1) s).bind fun a s =>
      (memRead (s.pc.toNat + 2) s).bind fun b s => .ok ⟨op, a, b⟩ s

/-- The fault an illegal opcode raises (R201, R202). -/
def decodeFault : DecodeError → Fault
  | .unsupportedInstruction op => .unsupportedInstruction op
  | .unsupportedOperation op => .unsupportedOperation op

/-- The decoding half of step 3 (R85). -/
def decodeFetched (c : Config) (t : Triple) (s : State) : Res Instr :=
  match decode c.opc t.op t.a t.b with
  | .ok i => .ok i s
  | .error e => .raised (decodeFault e) s

/-- Steps 1, 2 and the decoding of step 3, for any inputs: the opcode byte and the instruction the cycle executes. -/
def frontEndOn (c : Config) (inp : Input) (s : State) : Res (Byte × Instr) :=
  (interruptController c inp s).bind fun _ s =>
    (fetch s).bind fun t s => (decodeFetched c t s).bind fun i s => .ok (t.op, i) s

/-- The front end of the cycle that begins in a state, with the inputs of that cycle. -/
def frontEnd (s : State) : Res (Byte × Instr) :=
  frontEndOn s.env.config (currentInput s) (sampled s)

/-- Whether a fault ended the cycle. -/
def State.isFaulted (s : State) : Bool :=
  match s.status with
  | .faulted _ => true
  | _ => false

/-- Step 4 (R118): unless the opcode's bit 4 is set, `PC <- (PC + 1 + op[7:6]) mod 256`; it applies to `HLT` as well
(R121), and a fault suppresses it (R9, R205). That `PC` wraps is the spec's decision D9 (log entry 20). -/
def advance (op : Byte) (s : State) : State :=
  if s.isFaulted || opSetsPc op then s else setPc (s.pc + BitVec.ofNat 8 (1 + opNops op)) s

/-- Step 4 after step 3. -/
def afterExec (op : Byte) (o : Host.Outcome State Fault Refusal) : Host.Outcome State Fault Refusal :=
  match o with
  | .next s => .next (advance op s)
  | .fault f => .fault f
  | .refused r => .refused r

/-- One cycle (R110) of a running machine with the configuration it carries, for any inputs. -/
def cycle (inp : Input) (s : State) : Host.Outcome State Fault Refusal :=
  match frontEndOn s.env.config inp s with
  | .ok (op, i) s => afterExec op (exec i s)
  | .raised f s => .next (takeFault f s)

/-- A cycle while `status` is `Running`; in `Halted` and `Faulted` no cycle runs and nothing changes (R34, R122). -/
def stepOn (inp : Input) (s : State) : Host.Outcome State Fault Refusal :=
  match s.status with
  | .running => cycle inp s
  | .halted => .next s
  | .faulted _ => .next s

/-- The state with another configuration. -/
def State.withConfig (s : State) (c : Config) : State := { s with env := { s.env with config := c } }

/-- `step : Config -> State -> (tick : Bool) -> (key : Option Byte) -> State` of R122, with every argument the spec gives
it. (No cycle ends in a fault or a refusal of the host's interface: `exec_is_next`, log entry 21.) -/
def stepWith (c : Config) (s : State) (tick : Bool) (key : Option Byte) : State :=
  match stepOn { tick := tick, key := key } (s.withConfig c) with
  | .next t => t
  | .fault _ => s
  | .refused _ => s

/-- `n` cycles of a machine whose environment chooses the inputs of every cycle freely (R38, R122); `choice k` are those
of cycle `k`, for ever. -/
def runWith (c : Config) (choice : Nat → Input) : Nat → State → State
  | 0, s => s
  | n + 1, s => runWith c (fun k => choice (k + 1)) n (stepWith c s (choice 0).tick (choice 0).key)

/-- One step of the model: a cycle with the inputs the state supplies while `status` is `Running`; a stopped machine does
not sample them (R34, R38). -/
def stepRunning (s : State) : Host.Outcome State Fault Refusal :=
  match s.status with
  | .running => cycle (currentInput s) (sampled s)
  | .halted => .next s
  | .faulted _ => .next s

/-- The address the next cycle fetches its opcode from: `PC` after step 1 (R57, R111), or `PC` as it is when interrupt
entry faults and nothing is fetched. -/
def fetchAddress (s : State) : Nat :=
  match pollInterrupts s with
  | .ok _ t => t.pc.toNat
  | .raised _ _ => s.pc.toNat

/-- Stores bytes at ascending addresses, those inside memory (R52). -/
def storeBytes (a : Nat) : List Byte → Memory → Memory
  | [], m => m
  | v :: vs, m => storeBytes (a + 1) vs (if a < memSize then m.write a v else m)

/-- A state in which the next cycle's inputs are listed: a quiet input where none was, since the place of the next fetch
depends on them (R111; log entry 24). -/
def listInput (s : State) : State :=
  match s.env.inputs with
  | [] => { s with env := { s.env with inputs := [quietInput] } }
  | _ :: _ => s

/-- A table word laid where the next cycle fetches: the three fetched bytes, zeros above `nbits` (R80; log entry 24). -/
def placeWord (s : State) (nbits w : Nat) : State :=
  s.setMem (storeBytes (fetchAddress s) [tableByte nbits w 0, tableByte nbits w 1, tableByte nbits w 2] s.mem)

end Sys2Proof.Machine
end

