-- ==== Sys2Proof/Machine/Step.lean ====
section
/-! DEFINITION. The step of the model (40_cycle.md R110, R122) and the host's way to lay an instruction where the step
fetches it. -/

namespace Sys2Proof.Machine

/-- One step: `step` of R122 with configuration and inputs taken from `State.env`. -/
def step (s : State) : Host.Outcome State Fault Refusal := stepRunning s

/-- The state with an instruction's word stored where the next step fetches its instruction. -/
def State.withFetchWord (s : State) (nbits w : Nat) : State := placeWord (listInput s) nbits w

end Sys2Proof.Machine
end

