-- ==== Sys2Proof/Machine/Observe.lean ====
section
/-! DEFINITION. What the environment can see of a state: the console as a stream of characters (10_state.md R40) and the
diagnostic report on a fault (60_exceptions.md R207). Both are functions of the state; no instruction reads either. -/

namespace Sys2Proof.Machine

/-- The decimal digit character of a number below 10. -/
def digitChar (d : Nat) : Char := Char.ofNat (48 + d)

/-- The shortest decimal numeral of a byte: no sign, no leading zeros, `0` for zero, 1 to 3 digits (R40). -/
def decimal (v : Byte) : List Char :=
  let n := v.toNat
  if n < 10 then [digitChar n]
  else if n < 100 then [digitChar (n / 10), digitChar (n % 10)]
  else [digitChar (n / 100), digitChar (n / 10 % 10), digitChar (n % 10)]

/-- An event as characters: the numeral and one newline character, or the one character of that code point (R40). -/
def Event.text : Event → List Char
  | .dec v => decimal v ++ [Char.ofNat 10]
  | .chr v => [Char.ofNat v.toNat]

/-- The console as a character stream (R40). -/
def State.output (s : State) : List Char := s.console.flatMap Event.text

/-- The content of the diagnostic trace (R207); its textual format is outside CORE. -/
structure Report where
  pc : Byte
  /-- `mem[PC]`, `mem[PC + 1]`, `mem[PC + 2]` for those addresses that are at most 255. -/
  bytes : List Byte
  /-- `x[0]`..`x[7]`. -/
  regs : Vector Byte 8
  deriving DecidableEq, Repr

/-- The diagnostic trace of a state (R207). -/
def State.report (s : State) : Report where
  pc := s.pc
  bytes := ([s.pc.toNat, s.pc.toNat + 1, s.pc.toNat + 2].filter fun a => decide (a < memSize)).map s.mem.read
  regs := s.regs

end Sys2Proof.Machine
end

