-- ==== Sys2Proof/Safety.lean ====
section
/-! DEFINITION. The terms the claims are stated in: operands that name a register, frames, the invariant of the machine,
what each instruction writes, and sequences of stack operations. Nothing here is used by the machine. -/

namespace Sys2Proof.Machine

/-! ## Operands -/

/-- The operand byte that names a register: the bytes 0..7 (R83). -/
def regOp (r : Fin 8) : Byte := BitVec.ofNat 8 r.val

/-! ## Frames: what is left unchanged -/

/-- Every register outside a list is unchanged. -/
def KeepsRegs (written : List (Fin 8)) (s t : State) : Prop := ∀ r, r ∉ written → t.reg r = s.reg r

/-- Every byte of memory outside a list of addresses reads as before. -/
def KeepsMem (written : List Nat) (s t : State) : Prop := ∀ a, a ∉ written → t.mem.read a = s.mem.read a

/-- The run status, the console and the surroundings (configuration and inputs to come) are unchanged. -/
def KeepsRun (s t : State) : Prop := t.status = s.status ∧ t.console = s.console ∧ t.env = s.env

/-- The frame of an instruction that writes registers only: every other register, `FL`, `PC`, all of memory, status,
console and surroundings are unchanged. -/
def WritesOnlyRegs (written : List (Fin 8)) (s t : State) : Prop :=
  KeepsRegs written s t ∧ t.fl = s.fl ∧ t.pc = s.pc ∧ KeepsMem [] s t ∧ KeepsRun s t

end Sys2Proof.Machine

namespace Sys2Proof

/-! ## What each instruction writes -/

/-- The registers an instruction may write: its destination, and the stack pointer where the instruction uses the
stack (41_alu.md, 42_data_io.md, 43_stack.md, 44_control.md). -/
def Instr.destinations : Instr → List Byte
  | .add a _ => [a]
  | .sub a _ => [a]
  | .mul a _ => [a]
  | .div a _ => [a]
  | .inc a => [a]
  | .dec a => [a]
  | .cmp _ _ => []
  | .and a _ => [a]
  | .not a => [a]
  | .or a _ => [a]
  | .xor a _ => [a]
  | .shl a _ => [a]
  | .shr a _ => [a]
  | .hlt => []
  | .ret => [7]
  | .iret => [0, 1, 2, 3, 4, 5, 6, 7]
  | .push _ => [7]
  | .pop a => [a, 7]
  | .prn _ => []
  | .pra _ => []
  | .call _ => [7]
  | .jmp _ => []
  | .jeq _ => []
  | .jne _ => []
  | .ldi a _ => [a]
  | .ld a _ => [a]
  | .st _ _ => []

/-- The address an instruction stores to, if it stores: the value of the address register for `ST`, the decremented stack
pointer for `PUSH` and `CALL` (R57). -/
def Instr.storeAddress (i : Instr) (s : Machine.State) : Option Nat :=
  match i with
  | .st a _ => if h : a.toNat < 8 then some (s.reg ⟨a.toNat, h⟩).toNat else none
  | .push _ => some (s.reg Machine.SP - 1#8).toNat
  | .call _ => some (s.reg Machine.SP - 1#8).toNat
  | _ => none

/-- The instructions that write `FL` (R30). -/
def Instr.writesFlags : Instr → Bool
  | .cmp _ _ => true
  | .iret => true
  | _ => false

/-- The instructions that emit a console event (R40). -/
def Instr.emits : Instr → Bool
  | .prn _ => true
  | .pra _ => true
  | _ => false

end Sys2Proof

namespace Sys2Proof.Machine

/-! ## The invariant -/

/-- What the state shows when a fault has stopped the machine (R200): the report in `status` is true of the state that is
left for inspection (R205, R207). -/
def FaultShown (f : Fault) (s : State) : Prop :=
  match f with
  | .unsupportedInstruction op =>
      s.mem.read s.pc.toNat = op ∧ opIsAlu op = false ∧ ∀ m, s.env.config.opc m ≠ op
  | .unsupportedOperation op =>
      s.mem.read s.pc.toNat = op ∧ opIsAlu op = true ∧ ∀ m, s.env.config.opc m ≠ op
  | .divisionByZero p =>
      p = s.pc ∧ s.mem.read s.pc.toNat = s.env.config.opc .div ∧
        ∃ r, s.mem.read (s.pc.toNat + 2) = regOp r ∧ s.reg r = 0#8
  | .outOfRange (.mem a) => a = 256 ∧ 254 ≤ s.pc.toNat
  | .outOfRange (.reg i) =>
      8 ≤ i.toNat ∧ (i = s.mem.read (s.pc.toNat + 1) ∨ i = s.mem.read (s.pc.toNat + 2))
  | .outOfRange .stackPush => s.reg SP = 0#8
  | .outOfRange .stackPop => s.env.config.spInit.toNat ≤ (s.reg SP).toNat

/-- The status tells the truth: after `HLT` the byte before `PC` is its opcode (R121, R185), after a fault the state shows
the fault's condition. -/
def StatusTrue (s : State) : Prop :=
  match s.status with
  | .running => True
  | .halted => s.mem.read (s.pc - 1#8).toNat = s.env.config.opc .hlt
  | .faulted f => FaultShown f s

/-- The invariant every step keeps: the configuration is a legal one (R6), memory is in its canonical form (so it lists
only addresses 0..255, and equal memories are equal data), and the status tells the truth. The ranges of the registers, `PC`
and `FL` (R20, R28, R29) hold by their types. -/
def State.Inv (s : State) : Prop := s.env.config.Legal ∧ s.mem.wf = true ∧ StatusTrue s

/-! ## The surroundings -/

/-- The spec's own part of a state: nothing of the inputs to come is left. -/
def State.machine (s : State) : State := { s with env := { s.env with inputs := [], drawn := 0 } }

/-- `n` steps. -/
def stepMany : Nat → State → Host.Outcome State Fault Refusal
  | 0, s => .next s
  | n + 1, s =>
    match step s with
    | .next t => stepMany n t
    | .fault f => .fault f
    | .refused r => .refused r

/-! ## Sequences -/

/-- The state a part of a cycle leaves, whether it finished or raised a fault. -/
def Res.state {α : Type} (r : Res α) : State :=
  match r with
  | .ok _ s => s
  | .raised _ s => s

/-- `Push` of each byte of a list, in order. -/
def pushAll : List Byte → State → Res Unit
  | [], s => .ok () s
  | v :: vs, s => (push v s).bind fun _ s => pushAll vs s

/-- `n` times `Pop`; the bytes in the order they are popped. -/
def popMany (c : Config) : Nat → State → Res (List Byte)
  | 0, s => .ok [] s
  | n + 1, s => (pop c s).bind fun v s => (popMany c n s).bind fun vs s => .ok (v :: vs) s

/-- The byte of the interrupt frame at offset `k` above the stack pointer that entry leaves (R221): `x[6]`..`x[0]`, `FL`,
`PC`. -/
def frameByte (s : State) (k : Fin 9) : Byte :=
  match k with
  | 0 => s.reg 6
  | 1 => s.reg 5
  | 2 => s.reg 4
  | 3 => s.reg 3
  | 4 => s.reg 2
  | 5 => s.reg 1
  | 6 => s.reg 0
  | 7 => flagByte s.fl
  | 8 => s.pc

end Sys2Proof.Machine
end

