-- ==== Sys2Proof/Certificates/Slice0/Obligations.lean ====
section
/-! DEFINITION. The statements for the provers. They are about the machine, never about a program; a statement about an
instruction covers every form the spec gives it: an operand byte either names a register (`regOp r`, the bytes 0..7) or is
above 7. Opcode bytes, `SP_INIT`, `VEC_BASE` and `KEY_ADDR` are those of the configuration a state carries
(`State.env.config`), any configuration; where a statement needs it to be a legal one, `Config.Legal` is its premise. -/

open Sys2Proof Sys2Proof.Machine

/-! ## Reset and the invariant -/

/-- R42, R251, R252: reset with an image, for every configuration (R6). The zeros of `x[0]`..`x[6]`, `FL` and the memory
outside the image are the spec's own decision D6 (log entry 5). -/
def Obligations.BootEstablishesResetState : Prop :=
  ∀ (c : Config) (image : List Byte) (inputs : List Input), image.length ≤ 256 →
    (∀ r, r ≠ SP → (State.boot c image inputs).reg r = 0#8) ∧
    (State.boot c image inputs).reg SP = c.spInit ∧
    (State.boot c image inputs).pc = 0#8 ∧
    (State.boot c image inputs).fl = 0#3 ∧
    (State.boot c image inputs).status = .running ∧
    (State.boot c image inputs).console = [] ∧
    (∀ a, a < 256 → (State.boot c image inputs).mem.read a = image.getD a 0#8) ∧
    (State.boot c image inputs).env.config = c ∧
    (State.boot c image inputs).env.inputs = inputs

/-- The invariant holds after reset, for every legal configuration and every image that fits (R252), in particular of
`State.reset`. -/
def Obligations.BootStateSatisfiesInvariant : Prop :=
  State.reset.Inv ∧
  ∀ (c : Config) (image : List Byte) (inputs : List Input), c.Legal → image.length ≤ 256 →
    (State.boot c image inputs).Inv

/-- Every step keeps the invariant: the configuration stays a legal one (R6), memory stays in canonical form (so inside
0..255, R32), a halted machine stands one past a `HLT` (R121, R185), and a faulted machine's report is true of the state left
for inspection (R200, R205, R207). -/
def Obligations.StepKeepsInvariant : Prop :=
  ∀ s t : State, s.Inv → step s = .next t → t.Inv

/-! ## Encoding -/

/-- R80, R83, R86: for every legal opcode assignment, an encoded instruction decodes to itself whatever bytes follow it
in the fetched triple. -/
def Obligations.DecodeOfEncodeIsTheInstruction : Prop :=
  ∀ c : Config, c.Legal → ∀ (i : Instr) (rest : List Byte) (op a b : Byte),
    (encode c.opc i ++ rest).take 3 = [op, a, b] → decode c.opc op a b = .ok i

/-- R80, R81, R90: the instruction read from a triple encodes to the first `1 + op[7:6]` bytes of it, so no bit that
belongs to it is dropped. -/
def Obligations.EncodeOfDecodeIsTheFetchedBytes : Prop :=
  ∀ c : Config, c.Legal → ∀ (op a b : Byte) (i : Instr),
    decode c.opc op a b = .ok i → encode c.opc i = [op, a, b].take (1 + opNops op)

/-- R85: decode is by exact match of the opcode byte; a byte that matches no row is rejected under the name bit 5
selects, whatever the operand bytes are. -/
def Obligations.DecodeIsExactMatchOfTheOpcode : Prop :=
  ∀ c : Config, c.Legal → ∀ op a b : Byte,
    (∀ m, c.opc m = op → decode c.opc op a b = .ok (m.withOperands a b)) ∧
    ((∀ m, c.opc m ≠ op) → decode c.opc op a b =
      .error (if opIsAlu op then .unsupportedOperation op else .unsupportedInstruction op))

/-- R86: words of the opcode table, one of each family and format, with every operand byte (the numbers are the defaults
of the parameter `OPC`, log entry 1). -/
def Obligations.TableWordsDecode : Prop :=
  ∀ a b : Byte,
    decode Config.core.opc 0b10100000#8 a b = .ok (.add a b) ∧
    decode Config.core.opc 0b10100111#8 a b = .ok (.cmp a b) ∧
    decode Config.core.opc 0b01101001#8 a b = .ok (.not a) ∧
    decode Config.core.opc 0b10101101#8 a b = .ok (.shr a b) ∧
    decode Config.core.opc 0b10000010#8 a b = .ok (.ldi a b) ∧
    decode Config.core.opc 0b10000100#8 a b = .ok (.st a b) ∧
    decode Config.core.opc 0b01000111#8 a b = .ok (.prn a) ∧
    decode Config.core.opc 0b01000101#8 a b = .ok (.push a) ∧
    decode Config.core.opc 0b01010000#8 a b = .ok (.call a) ∧
    decode Config.core.opc 0b01010110#8 a b = .ok (.jne a) ∧
    decode Config.core.opc 0b00010011#8 a b = .ok .iret ∧
    decode Config.core.opc 0b00000001#8 a b = .ok .hlt ∧
    decode Config.core.opc 0b00000000#8 a b = .error (.unsupportedInstruction 0b00000000#8) ∧
    decode Config.core.opc 0b10100100#8 a b = .error (.unsupportedOperation 0b10100100#8)

/-! ## Memory -/

/-- R50, R52: memory has two operations. A read gives the byte last written and changes nothing; a write changes that byte
and nothing else; outside 0..255 both raise `OutOfRange` with the address and access nothing. -/
def Obligations.MemoryReadsTheByteLastWritten : Prop :=
  ∀ (s : State) (a : Nat) (v : Byte),
    (a < 256 → memRead a s = .ok (s.mem.read a) s ∧
      ∃ t, memWrite a v s = .ok () t ∧ memRead a t = .ok v t ∧
        KeepsMem [a] s t ∧ KeepsRegs [] s t ∧ t.fl = s.fl ∧ t.pc = s.pc ∧ KeepsRun s t) ∧
    (256 ≤ a → memRead a s = .raised (.outOfRange (.mem a)) s ∧
      memWrite a v s = .raised (.outOfRange (.mem a)) s)

/-! ## The ALU family -/

/-- R131 (with the operations of R134, R135, R136, R144, R145): results are unsigned and reduced modulo 256; nothing
saturates, nothing traps, nothing else is written. -/
def Obligations.ArithmeticWrapsModulo256 : Prop :=
  ∀ (s : State) (r q : Fin 8),
    (∃ t, exec (.add (regOp r) (regOp q)) s = .next t ∧ WritesOnlyRegs [r] s t ∧
      (t.reg r).toNat = ((s.reg r).toNat + (s.reg q).toNat) % 256) ∧
    (∃ t, exec (.sub (regOp r) (regOp q)) s = .next t ∧ WritesOnlyRegs [r] s t ∧
      ((t.reg r).toNat : Int) = ((s.reg r).toNat - (s.reg q).toNat : Int) % 256) ∧
    (∃ t, exec (.mul (regOp r) (regOp q)) s = .next t ∧ WritesOnlyRegs [r] s t ∧
      (t.reg r).toNat = ((s.reg r).toNat * (s.reg q).toNat) % 256) ∧
    (∃ t, exec (.inc (regOp r)) s = .next t ∧ WritesOnlyRegs [r] s t ∧
      (t.reg r).toNat = ((s.reg r).toNat + 1) % 256) ∧
    (∃ t, exec (.dec (regOp r)) s = .next t ∧ WritesOnlyRegs [r] s t ∧
      ((t.reg r).toNat : Int) = ((s.reg r).toNat - 1 : Int) % 256)

/-- R137: the floor of the quotient; a zero divisor raises `DivisionByZero` with the address of the `DIV` and changes
nothing else; an illegal register operand is reported first. -/
def Obligations.DivideFloorsAndFaultsOnZero : Prop :=
  ∀ s : State,
    (∀ r q : Fin 8, s.reg q ≠ 0#8 →
      ∃ t, exec (.div (regOp r) (regOp q)) s = .next t ∧ WritesOnlyRegs [r] s t ∧
        (t.reg r).toNat = (s.reg r).toNat / (s.reg q).toNat) ∧
    (∀ r q : Fin 8, s.reg q = 0#8 →
      exec (.div (regOp r) (regOp q)) s = .next (takeFault (.divisionByZero s.pc) s)) ∧
    (∀ a b : Byte, 8 ≤ a.toNat → exec (.div a b) s = .next (takeFault (.outOfRange (.reg a)) s)) ∧
    (∀ (r : Fin 8) (b : Byte), 8 ≤ b.toNat →
      exec (.div (regOp r) b) s = .next (takeFault (.outOfRange (.reg b)) s))

/-- R138, R139, R140, R141: the bitwise operations, bit by bit. -/
def Obligations.BitwiseOperationsActBitByBit : Prop :=
  ∀ (s : State) (r q : Fin 8),
    (∃ t, exec (.and (regOp r) (regOp q)) s = .next t ∧ WritesOnlyRegs [r] s t ∧
      ∀ k, k < 8 → (t.reg r).getLsbD k = ((s.reg r).getLsbD k && (s.reg q).getLsbD k)) ∧
    (∃ t, exec (.or (regOp r) (regOp q)) s = .next t ∧ WritesOnlyRegs [r] s t ∧
      ∀ k, k < 8 → (t.reg r).getLsbD k = ((s.reg r).getLsbD k || (s.reg q).getLsbD k)) ∧
    (∃ t, exec (.xor (regOp r) (regOp q)) s = .next t ∧ WritesOnlyRegs [r] s t ∧
      ∀ k, k < 8 → (t.reg r).getLsbD k = ((s.reg r).getLsbD k != (s.reg q).getLsbD k)) ∧
    (∃ t, exec (.not (regOp r)) s = .next t ∧ WritesOnlyRegs [r] s t ∧
      (t.reg r).toNat = 255 - (s.reg r).toNat)

/-- R142, R143: shifts by the literal operand byte; a count of 8 or more gives 0 (the spec's decision D17, log entry 10);
the count is never a register index. -/
def Obligations.ShiftsUseTheLiteralCount : Prop :=
  ∀ (s : State) (r : Fin 8) (n : Byte),
    (∃ t, exec (.shl (regOp r) n) s = .next t ∧ WritesOnlyRegs [r] s t ∧
      (t.reg r).toNat = ((s.reg r).toNat * 2 ^ n.toNat) % 256) ∧
    (∃ t, exec (.shr (regOp r) n) s = .next t ∧ WritesOnlyRegs [r] s t ∧
      (t.reg r).toNat = (s.reg r).toNat / 2 ^ n.toNat)

/-- R29, R31, R146: an unsigned comparison writes the three flags, exactly one of them 1, and nothing else. (With an illegal
register operand `FL` is unchanged: `AluReportsTheFirstIllegalRegister`.) -/
def Obligations.CompareWritesExactlyOneFlag : Prop :=
  ∀ (s : State) (r q : Fin 8), ∃ t, exec (.cmp (regOp r) (regOp q)) s = .next t ∧
    (flagE t.fl = true ↔ (s.reg r).toNat = (s.reg q).toNat) ∧
    (flagG t.fl = true ↔ (s.reg r).toNat > (s.reg q).toNat) ∧
    (flagL t.fl = true ↔ (s.reg r).toNat < (s.reg q).toNat) ∧
    (t.fl = 1#3 ∨ t.fl = 2#3 ∨ t.fl = 4#3) ∧
    KeepsRegs [] s t ∧ t.pc = s.pc ∧ KeepsMem [] s t ∧ KeepsRun s t

/-- R133 (the spec's decision D16, log entry 12): an ALU instruction reports the first illegal register index it reads and
changes nothing; operand B is checked only by the operations that use it as a register. -/
def Obligations.AluReportsTheFirstIllegalRegister : Prop :=
  ∀ s : State,
    (∀ a b : Byte, 8 ≤ a.toNat →
      ∀ i ∈ [Instr.add a b, .sub a b, .mul a b, .div a b, .and a b, .or a b, .xor a b, .cmp a b,
             .shl a b, .shr a b, .inc a, .dec a, .not a],
        exec i s = .next (takeFault (.outOfRange (.reg a)) s)) ∧
    (∀ (r : Fin 8) (b : Byte), 8 ≤ b.toNat →
      ∀ i ∈ [Instr.add (regOp r) b, .sub (regOp r) b, .mul (regOp r) b, .div (regOp r) b, .and (regOp r) b,
             .or (regOp r) b, .xor (regOp r) b, .cmp (regOp r) b],
        exec i s = .next (takeFault (.outOfRange (.reg b)) s))

/-! ## Data movement and console -/

/-- R160: `LDI` writes the literal byte, whatever register it names; its opcode and its advance by 3. That the advance
wraps at 256 is the spec's decision D9 (R119), log entry 20. -/
def Obligations.LoadImmediateWritesTheLiteral : Prop :=
  ∀ (s : State) (imm : Byte),
    (s.env.config.Legal → ∀ a : Byte, encode s.env.config.opc (.ldi a imm) = [0x82#8, a, imm]) ∧
    (∀ r : Fin 8, ∃ t, exec (.ldi (regOp r) imm) s = .next t ∧ WritesOnlyRegs [r] s t ∧ t.reg r = imm ∧
      (s.status = .running → (advance 0x82#8 t).pc.toNat = (s.pc.toNat + 3) % 256)) ∧
    (∀ a : Byte, 8 ≤ a.toNat → exec (.ldi a imm) s = .next (takeFault (.outOfRange (.reg a)) s))

/-- R161 (operand roles by the spec's decision D7, log entry 7): `LD` reads the byte at the address in `x[b]`; `b` is
checked before `a`. -/
def Obligations.LoadReadsThroughTheAddressRegister : Prop :=
  ∀ s : State,
    (∀ r q : Fin 8, ∃ t, exec (.ld (regOp r) (regOp q)) s = .next t ∧ WritesOnlyRegs [r] s t ∧
      t.reg r = s.mem.read (s.reg q).toNat) ∧
    (∀ a b : Byte, 8 ≤ b.toNat → exec (.ld a b) s = .next (takeFault (.outOfRange (.reg b)) s)) ∧
    (∀ (a : Byte) (q : Fin 8), 8 ≤ a.toNat →
      exec (.ld a (regOp q)) s = .next (takeFault (.outOfRange (.reg a)) s))

/-- R162 (operand roles by D7, log entry 7): `ST` stores `x[b]` at the address in `x[a]` and changes no other byte and no
register. -/
def Obligations.StoreWritesThroughTheAddressRegister : Prop :=
  ∀ s : State,
    (∀ r q : Fin 8, ∃ t, exec (.st (regOp r) (regOp q)) s = .next t ∧
      t.mem.read (s.reg r).toNat = s.reg q ∧ KeepsMem [(s.reg r).toNat] s t ∧
      KeepsRegs [] s t ∧ t.fl = s.fl ∧ t.pc = s.pc ∧ KeepsRun s t) ∧
    (∀ a b : Byte, 8 ≤ a.toNat → exec (.st a b) s = .next (takeFault (.outOfRange (.reg a)) s)) ∧
    (∀ (r : Fin 8) (b : Byte), 8 ≤ b.toNat →
      exec (.st (regOp r) b) s = .next (takeFault (.outOfRange (.reg b)) s))

/-- R163: `PRN` appends one decimal event; registers, `FL` and memory are unchanged; an illegal operand emits nothing. On
the character stream the event is the numeral and a newline; that the newline is code point 10 is the model's own choice
(log entry 13, DESIGN CHOICE). -/
def Obligations.PrintRegisterEmitsOneDecimal : Prop :=
  ∀ s : State,
    (s.env.config.Legal → ∀ a : Byte, encode s.env.config.opc (.prn a) = [0x47#8, a]) ∧
    (∀ r : Fin 8, ∃ t, exec (.prn (regOp r)) s = .next t ∧ t.console = s.console ++ [.dec (s.reg r)] ∧
      t.output = s.output ++ decimal (s.reg r) ++ [Char.ofNat 10] ∧
      KeepsRegs [] s t ∧ t.fl = s.fl ∧ t.pc = s.pc ∧ KeepsMem [] s t ∧ t.status = s.status ∧ t.env = s.env) ∧
    (∀ a : Byte, 8 ≤ a.toNat → exec (.prn a) s = .next (takeFault (.outOfRange (.reg a)) s))

/-- R164: `PRA` appends one character event, for every value 0..255, with no newline. -/
def Obligations.PrintAlphaEmitsOneCharacter : Prop :=
  ∀ s : State,
    (∀ r : Fin 8, ∃ t, exec (.pra (regOp r)) s = .next t ∧ t.console = s.console ++ [.chr (s.reg r)] ∧
      t.output = s.output ++ [Char.ofNat (s.reg r).toNat] ∧
      KeepsRegs [] s t ∧ t.fl = s.fl ∧ t.pc = s.pc ∧ KeepsMem [] s t ∧ t.status = s.status ∧ t.env = s.env) ∧
    (∀ a : Byte, 8 ≤ a.toNat → exec (.pra a) s = .next (takeFault (.outOfRange (.reg a)) s))

/-- R40 (text by the spec's decision D18): the characters of a decimal event are the digits of the value without leading
zeros, then one newline; those of a character event are the one character of that code point. That the newline is code
point 10 is the model's own choice and no decision of the spec, which leaves it to the host (U11; log entry 13, DESIGN
CHOICE). -/
def Obligations.ConsoleTextIsTheShortestNumeral : Prop :=
  ∀ v : Byte,
    (∃ digits : List Nat, (∀ d ∈ digits, d < 10) ∧
      digits.foldl (fun n d => 10 * n + d) 0 = v.toNat ∧
      (digits = [0] ∨ digits.head? ≠ some 0) ∧ digits ≠ [] ∧
      (Event.dec v).text.map Char.toNat = digits.map (fun d => 48 + d) ++ [10]) ∧
    (Event.chr v).text.map Char.toNat = [v.toNat]

/-! ## The stack -/

/-- R170, R172: the store goes to `x[7] - 1`, the new `x[7]`; `PUSH R7` stores the decremented pointer (the spec's decision
D12, log entry 8); the register check comes before the bound check, and neither fault changes anything (D11, D14). -/
def Obligations.PushStoresBelowTheStackPointer : Prop :=
  ∀ s : State,
    (∀ r : Fin 8, s.reg SP ≠ 0#8 → ∃ t, exec (.push (regOp r)) s = .next t ∧
      (t.reg SP).toNat = (s.reg SP).toNat - 1 ∧
      t.mem.read ((s.reg SP).toNat - 1) = (if r = SP then t.reg SP else s.reg r) ∧
      KeepsMem [(s.reg SP).toNat - 1] s t ∧ KeepsRegs [SP] s t ∧ t.fl = s.fl ∧ t.pc = s.pc ∧ KeepsRun s t) ∧
    (∀ r : Fin 8, s.reg SP = 0#8 →
      exec (.push (regOp r)) s = .next (takeFault (.outOfRange .stackPush) s)) ∧
    (∀ a : Byte, 8 ≤ a.toNat → exec (.push a) s = .next (takeFault (.outOfRange (.reg a)) s))

/-- R171, R173: the byte at `x[7]` goes to the register, then `x[7]` is incremented modulo 256, so `POP R7` ends with the
popped byte plus one (D12, log entry 8); the bound is the constant `SP_INIT` (D11). -/
def Obligations.PopLoadsFromTheStackPointer : Prop :=
  ∀ s : State,
    (∀ r : Fin 8, (s.reg SP).toNat < s.env.config.spInit.toNat → ∃ t, exec (.pop (regOp r)) s = .next t ∧
      (r ≠ SP → t.reg r = s.mem.read (s.reg SP).toNat ∧ (t.reg SP).toNat = (s.reg SP).toNat + 1) ∧
      (r = SP → (t.reg SP).toNat = ((s.mem.read (s.reg SP).toNat).toNat + 1) % 256) ∧
      WritesOnlyRegs [r, SP] s t) ∧
    (∀ r : Fin 8, s.env.config.spInit.toNat ≤ (s.reg SP).toNat →
      exec (.pop (regOp r)) s = .next (takeFault (.outOfRange .stackPop) s)) ∧
    (∀ a : Byte, 8 ≤ a.toNat → exec (.pop a) s = .next (takeFault (.outOfRange (.reg a)) s))

/-- R174: `PUSH Ra; POP Rc` copies the register and restores the stack pointer. -/
def Obligations.PushThenPopCopiesTheRegister : Prop :=
  ∀ (s t : State) (r q : Fin 8), r ≠ SP → q ≠ SP → 0 < (s.reg SP).toNat →
    (s.reg SP).toNat ≤ s.env.config.spInit.toNat → exec (.push (regOp r)) s = .next t →
    ∃ u, exec (.pop (regOp q)) t = .next u ∧ u.reg q = s.reg r ∧ u.reg SP = s.reg SP ∧ KeepsRegs [q] s u ∧
      u.mem.read ((s.reg SP).toNat - 1) = s.reg r ∧ KeepsMem [(s.reg SP).toNat - 1] s u ∧
      u.fl = s.fl ∧ u.pc = s.pc ∧ KeepsRun s u

/-- R174, R175: `n` pushes that fit, then `n` pops, give the bytes in reverse order and leave every register as it was;
only the `n` cells below the stack pointer have changed. -/
def Obligations.PushesComeBackInReverse : Prop :=
  ∀ (vs : List Byte) (s : State), vs.length ≤ (s.reg SP).toNat → (s.reg SP).toNat ≤ s.env.config.spInit.toNat →
    ∃ t u, pushAll vs s = .ok () t ∧ (t.reg SP).toNat = (s.reg SP).toNat - vs.length ∧
      popMany s.env.config vs.length t = .ok vs.reverse u ∧ KeepsRegs [] s u ∧
      KeepsMem ((List.range vs.length).map fun k => (s.reg SP).toNat - 1 - k) s u ∧
      u.fl = s.fl ∧ u.pc = s.pc ∧ KeepsRun s u

/-! ## Control transfer -/

/-- R180: `CALL` pushes the address after it, wrapped (the spec's decision D9, log entry 20), and jumps to the register,
read after the push (D12, log entry 8); both faults change nothing. -/
def Obligations.CallPushesTheReturnAddress : Prop :=
  ∀ s : State,
    (∀ r : Fin 8, s.reg SP ≠ 0#8 → ∃ t, exec (.call (regOp r)) s = .next t ∧
      (t.reg SP).toNat = (s.reg SP).toNat - 1 ∧
      (t.mem.read ((s.reg SP).toNat - 1)).toNat = (s.pc.toNat + 2) % 256 ∧
      t.pc = t.reg r ∧
      KeepsMem [(s.reg SP).toNat - 1] s t ∧ KeepsRegs [SP] s t ∧ t.fl = s.fl ∧ KeepsRun s t) ∧
    (∀ r : Fin 8, s.reg SP = 0#8 →
      exec (.call (regOp r)) s = .next (takeFault (.outOfRange .stackPush) s)) ∧
    (∀ a : Byte, 8 ≤ a.toNat → exec (.call a) s = .next (takeFault (.outOfRange (.reg a)) s))

/-- R181: `RET` pops the byte on top of the stack into `PC`; at or above `SP_INIT` it faults and changes nothing. -/
def Obligations.ReturnPopsTheTarget : Prop :=
  ∀ s : State,
    ((s.reg SP).toNat < s.env.config.spInit.toNat → ∃ t, exec .ret s = .next t ∧
      t.pc = s.mem.read (s.reg SP).toNat ∧ (t.reg SP).toNat = (s.reg SP).toNat + 1 ∧
      KeepsRegs [SP] s t ∧ t.fl = s.fl ∧ KeepsMem [] s t ∧ KeepsRun s t) ∧
    (s.env.config.spInit.toNat ≤ (s.reg SP).toNat → exec .ret s = .next (takeFault (.outOfRange .stackPop) s))

/-- R180, R181: whatever ran in between, a `RET` that finds the stack pointer and the pushed byte as `CALL` left them goes
to the instruction after the `CALL` (its address wrapped: D9, log entry 20) and restores the stack pointer. -/
def Obligations.ReturnGoesToTheInstructionAfterTheCall : Prop :=
  ∀ (s t v : State) (r : Fin 8), v.env.config = s.env.config →
    0 < (s.reg SP).toNat → (s.reg SP).toNat ≤ s.env.config.spInit.toNat →
    exec (.call (regOp r)) s = .next t → v.reg SP = t.reg SP →
    v.mem.read (t.reg SP).toNat = t.mem.read (t.reg SP).toNat →
    ∃ u, exec .ret v = .next u ∧
      u.pc.toNat = (s.pc.toNat + (encode s.env.config.opc (.call (regOp r))).length) % 256 ∧
      u.reg SP = s.reg SP ∧ KeepsRegs [SP] v u ∧ KeepsMem [] v u

/-- R182 (target by the spec's decision D7, log entry 7): `JMP` goes to the register's value and changes nothing else. -/
def Obligations.JumpGoesToTheRegister : Prop :=
  ∀ s : State,
    (∀ r : Fin 8, ∃ t, exec (.jmp (regOp r)) s = .next t ∧ t.pc = s.reg r ∧
      KeepsRegs [] s t ∧ t.fl = s.fl ∧ KeepsMem [] s t ∧ KeepsRun s t) ∧
    (∀ a : Byte, 8 ≤ a.toNat → exec (.jmp a) s = .next (takeFault (.outOfRange (.reg a)) s))

/-- R183, R184: the conditional jumps test flag `E` alone; a jump not taken steps over itself (D8, log entry 14; `PC`
wraps: D9, log entry 20) and never looks at its operand (D16, log entry 12). -/
def Obligations.ConditionalJumpsTestTheEqualFlag : Prop :=
  ∀ s : State,
    (∀ r : Fin 8, flagE s.fl = true → ∃ t, exec (.jeq (regOp r)) s = .next t ∧ t.pc = s.reg r ∧
      KeepsRegs [] s t ∧ t.fl = s.fl ∧ KeepsMem [] s t ∧ KeepsRun s t) ∧
    (∀ a : Byte, flagE s.fl = false → ∃ t, exec (.jeq a) s = .next t ∧ t.pc.toNat = (s.pc.toNat + 2) % 256 ∧
      KeepsRegs [] s t ∧ t.fl = s.fl ∧ KeepsMem [] s t ∧ KeepsRun s t) ∧
    (∀ r : Fin 8, flagE s.fl = false → ∃ t, exec (.jne (regOp r)) s = .next t ∧ t.pc = s.reg r ∧
      KeepsRegs [] s t ∧ t.fl = s.fl ∧ KeepsMem [] s t ∧ KeepsRun s t) ∧
    (∀ a : Byte, flagE s.fl = true → ∃ t, exec (.jne a) s = .next t ∧ t.pc.toNat = (s.pc.toNat + 2) % 256 ∧
      KeepsRegs [] s t ∧ t.fl = s.fl ∧ KeepsMem [] s t ∧ KeepsRun s t) ∧
    (∀ a : Byte, 8 ≤ a.toNat →
      (flagE s.fl = true → exec (.jeq a) s = .next (takeFault (.outOfRange (.reg a)) s)) ∧
      (flagE s.fl = false → exec (.jne a) s = .next (takeFault (.outOfRange (.reg a)) s)))

/-- R185, R118, R121: `HLT` sets the status and nothing else, its opcode has bit 4 clear, so the engine then advances `PC`
by one, wrapping (the spec's decision D9, log entry 20). -/
def Obligations.HaltStopsTheMachine : Prop :=
  ∀ s : State, ∃ t, exec .hlt s = .next t ∧ t.status = .halted ∧ t.pc = s.pc ∧ KeepsRegs [] s t ∧ t.fl = s.fl ∧
    KeepsMem [] s t ∧ t.console = s.console ∧ t.env = s.env ∧
    (s.env.config.Legal → (advance (s.env.config.opc .hlt) t).pc.toNat = (s.pc.toNat + 1) % 256 ∧
      (advance (s.env.config.opc .hlt) t).status = .halted)

/-- R186 (flag byte by the spec's decision D13, log entry 9): with nine bytes to pop, `IRET` loads `x[6]`..`x[0]`, `FL`
from the low three bits, and `PC`; `x[7]` ends nine higher; memory is unchanged. -/
def Obligations.InterruptReturnLoadsTheFrame : Prop :=
  ∀ s : State, (s.reg SP).toNat + 9 ≤ s.env.config.spInit.toNat →
    ∃ t, exec .iret s = .next t ∧
      (∀ r : Fin 8, r ≠ SP → t.reg r = s.mem.read ((s.reg SP).toNat + 6 - r.val)) ∧
      (∀ k, k < 3 → t.fl.getLsbD k = (s.mem.read ((s.reg SP).toNat + 7)).getLsbD k) ∧
      t.pc = s.mem.read ((s.reg SP).toNat + 8) ∧
      (t.reg SP).toNat = (s.reg SP).toNat + 9 ∧ KeepsMem [] s t ∧ KeepsRun s t

/-- R186, R123 (the spec's decision D22, log entry 15): with fewer than nine bytes to pop, `IRET` faults at the first pop
that meets `SP_INIT`; the pops already done stay done, `PC` and memory do not change. -/
def Obligations.InterruptReturnFaultsPartWay : Prop :=
  ∀ s : State, s.env.config.spInit.toNat < (s.reg SP).toNat + 9 →
    ∃ t, exec .iret s = .next t ∧ t.status = .faulted (.outOfRange .stackPop) ∧
      (t.reg SP).toNat = max (s.reg SP).toNat s.env.config.spInit.toNat ∧
      (∀ r : Fin 8, r ≠ SP → t.reg r =
        if (s.reg SP).toNat + 6 - r.val < s.env.config.spInit.toNat
        then s.mem.read ((s.reg SP).toNat + 6 - r.val) else s.reg r) ∧
      t.fl = (if (s.reg SP).toNat + 7 < s.env.config.spInit.toNat
        then flagsOfByte (s.mem.read ((s.reg SP).toNat + 7)) else s.fl) ∧
      t.pc = s.pc ∧ KeepsMem [] s t ∧ t.console = s.console ∧ t.env = s.env

/-! ## Interrupts -/

/-- R211, R212: a tick sets pending bit 0, a key sets pending bit 1 and writes the keyboard cell; nothing else changes,
whether or not the lines are enabled. -/
def Obligations.InputsSetPendingBits : Prop :=
  ∀ (inp : Input) (s : State), ∃ t, latchKey s.env.config inp.key (latchTimer inp.tick s) = .ok () t ∧
    (∀ k, k < 8 → (t.reg IS).getLsbD k =
      ((s.reg IS).getLsbD k || (decide (k = 0) && inp.tick) || (decide (k = 1) && inp.key.isSome))) ∧
    (t.mem.read s.env.config.keyAddr.toNat = inp.key.getD (s.mem.read s.env.config.keyAddr.toNat)) ∧
    KeepsMem [s.env.config.keyAddr.toNat] s t ∧ KeepsRegs [IS] s t ∧ t.fl = s.fl ∧ t.pc = s.pc ∧ KeepsRun s t

/-- R214, R215: the arbiter gives the lowest set bit, and none exactly when no bit is set. -/
def Obligations.ArbiterPicksTheLowestLine : Prop :=
  ∀ m : Byte,
    (arbiter m = none ↔ m = 0#8) ∧
    (∀ i : Fin 8, arbiter m = some i ↔ m.getLsbD i = true ∧ ∀ j : Fin 8, j < i → m.getLsbD j = false)

/-- R210, R213, R223: after the inputs are latched, the controller enters the lowest line that is pending and enabled, and
only that one; with no such line it does nothing more. -/
def Obligations.ControllerServicesTheLowestEnabledLine : Prop :=
  ∀ (s u : State),
    latchKey s.env.config (currentInput s).key (latchTimer (currentInput s).tick (sampled s)) = .ok () u →
    ((∀ i : Fin 8, ¬((u.reg IS).getLsbD i = true ∧ (u.reg IM).getLsbD i = true)) →
      pollInterrupts s = .ok () u) ∧
    (∀ i : Fin 8, (u.reg IS).getLsbD i = true → (u.reg IM).getLsbD i = true →
      (∀ j : Fin 8, j < i → ¬((u.reg IS).getLsbD j = true ∧ (u.reg IM).getLsbD j = true)) →
      pollInterrupts s = enter s.env.config i u)

/-- R220, R221, R222: with nine free bytes, entry clears the line's pending bit, pushes `PC`, `FL`, `x[0]`..`x[6]` (the
saved `x[6]` with the bit clear) and loads `PC` from the line's vector slot; every other line stays pending, the mask,
`x[0]`..`x[4]` and `FL` do not change. -/
def Obligations.EntrySavesTheContext : Prop :=
  ∀ (s : State) (i : Fin 8), s.env.config.Legal → 9 ≤ (s.reg SP).toNat →
    ∃ t, enter s.env.config i s = .ok () t ∧
      (t.reg SP).toNat = (s.reg SP).toNat - 9 ∧
      (∀ j : Fin 8, (t.reg IS).getLsbD j = ((s.reg IS).getLsbD j && decide (j ≠ i))) ∧
      KeepsRegs [IS, SP] s t ∧ t.fl = s.fl ∧ KeepsRun s t ∧
      t.mem.read ((s.reg SP).toNat - 1) = s.pc ∧
      t.mem.read ((s.reg SP).toNat - 2) = flagByte s.fl ∧
      (∀ r : Fin 8, r ≠ SP → t.mem.read ((s.reg SP).toNat - 3 - r.val) = t.reg r) ∧
      KeepsMem ((List.range 9).map fun k => (s.reg SP).toNat - 1 - k) s t ∧
      t.pc = t.mem.read (s.env.config.vecBase.toNat + i.val)

/-- R224 (D22, log entry 15): with fewer than nine free bytes the first `x[7]` pushes are performed and the next one
faults; the pending bit stays cleared, `x[7]` is 0, `PC` has not been redirected. -/
def Obligations.EntryFaultsWhenTheStackRunsOut : Prop :=
  ∀ (s : State) (i : Fin 8), (s.reg SP).toNat < 9 →
    ∃ t, enter s.env.config i s = .raised (.outOfRange .stackPush) t ∧
      t.reg SP = 0#8 ∧
      (∀ j : Fin 8, (t.reg IS).getLsbD j = ((s.reg IS).getLsbD j && decide (j ≠ i))) ∧
      KeepsRegs [IS, SP] s t ∧ t.fl = s.fl ∧ t.pc = s.pc ∧ KeepsRun s t ∧
      (∀ k : Fin 9, 9 - (s.reg SP).toNat ≤ k.val →
        t.mem.read (k.val + (s.reg SP).toNat - 9) = frameByte (clearPending i s) k) ∧
      KeepsMem (List.range (s.reg SP).toNat) s t

/-- R186, R221, R227: `IRET` reverses an interrupt entry exactly. Whatever the handler did, if it left the stack pointer
and the nine frame bytes as entry left them, `IRET` restores every register (the pending register with the serviced bit
clear), `FL` and `PC` of the interrupted code. -/
def Obligations.InterruptReturnReversesEntry : Prop :=
  ∀ (s t v : State) (i : Fin 8), v.env.config = s.env.config →
    9 ≤ (s.reg SP).toNat → (s.reg SP).toNat ≤ s.env.config.spInit.toNat →
    enter s.env.config i s = .ok () t → v.reg SP = t.reg SP →
    (∀ a, (s.reg SP).toNat - 9 ≤ a → a < (s.reg SP).toNat → v.mem.read a = t.mem.read a) →
    ∃ u, exec .iret v = .next u ∧ KeepsRegs [IS] s u ∧
      (∀ j : Fin 8, (u.reg IS).getLsbD j = ((s.reg IS).getLsbD j && decide (j ≠ i))) ∧
      u.fl = s.fl ∧ u.pc = s.pc ∧ KeepsMem [] v u ∧ KeepsRun v u

/-- R24, R25, R225: the hardware itself raises no line but 0 and 1, and writes no register but the pending register and,
when it pushes, the stack pointer; in particular never the mask. -/
def Obligations.HardwareWritesOnlyPendingAndStackPointer : Prop :=
  ∀ s : State,
    KeepsRegs [IS, SP] s (pollInterrupts s).state ∧
    (pollInterrupts s).state.fl = s.fl ∧
    (∀ k, 2 ≤ k → ((pollInterrupts s).state.reg IS).getLsbD k = true → (s.reg IS).getLsbD k = true)

/-! ## The cycle -/

/-- R110, R112, R113: a cycle whose interrupt controller completes and whose three fetched bytes decode to `i` is `exec i`
followed by the `PC` advance of the fetched opcode. With no input and no line pending and enabled, the controller only
takes the cycle's input. -/
def Obligations.StepRunsTheDecodedInstruction : Prop :=
  (∀ (s t : State) (i : Instr), s.status = .running → pollInterrupts s = .ok () t → t.pc.toNat ≤ 253 →
    decode s.env.config.opc (t.mem.read t.pc.toNat) (t.mem.read (t.pc.toNat + 1)) (t.mem.read (t.pc.toNat + 2)) = .ok i →
    step s = afterExec (t.mem.read t.pc.toNat) (exec i t)) ∧
  (∀ s : State, currentInput s = quietInput → serviceable s = 0#8 → pollInterrupts s = .ok () (sampled s))

/-- R34, R122: the step is a total function, answering a next state always; a machine that is not running does not
change (the spec's decision D19, log entry 16). -/
def Obligations.StepIsTotalAndAStoppedMachineStays : Prop :=
  (∀ s : State, ∃ t, step s = .next t) ∧ ∀ s : State, s.status ≠ .running → step s = .next s

/-- R112 (D10, log entry 17), R201, R202, R205, R206, R224: the faults of a cycle that come before any instruction runs, in
the order they are met: in interrupt entry, in operand fetch from 254 or 255, and at an illegal opcode. Only `status`
changes. -/
def Obligations.FaultsBeforeExecutionStopTheCycle : Prop :=
  ∀ s : State, s.status = .running →
    (∀ f t, pollInterrupts s = .raised f t → step s = .next (takeFault f t) ∧ t.pc = s.pc) ∧
    (∀ t, pollInterrupts s = .ok () t → 254 ≤ t.pc.toNat →
      step s = .next (takeFault (.outOfRange (.mem 256)) t)) ∧
    (∀ t, pollInterrupts s = .ok () t → t.pc.toNat ≤ 253 →
      (∀ m, s.env.config.opc m ≠ t.mem.read t.pc.toNat) →
      step s = .next (takeFault
        (if opIsAlu (t.mem.read t.pc.toNat) then .unsupportedOperation (t.mem.read t.pc.toNat)
         else .unsupportedInstruction (t.mem.read t.pc.toNat)) t))

/-- R118, R119, R120: `PC` after a fault-free cycle, for every instruction; `t` is the state in which the instruction
runs. -/
def Obligations.PcAfterACycleFollowsTheTable : Prop :=
  ∀ (s t u : State) (op : Byte) (i : Instr), s.env.config.Legal → s.status = .running → frontEnd s = .ok (op, i) t →
    step s = .next u → u.isFaulted = false →
    match i with
    | .jmp a => ∃ r, a = regOp r ∧ u.pc = t.reg r
    | .jeq a => if flagE t.fl then ∃ r, a = regOp r ∧ u.pc = t.reg r else u.pc.toNat = (t.pc.toNat + 2) % 256
    | .jne a => if flagE t.fl then u.pc.toNat = (t.pc.toNat + 2) % 256 else ∃ r, a = regOp r ∧ u.pc = t.reg r
    | .call a => ∃ r, a = regOp r ∧ u.pc = (if r = SP then t.reg SP - 1#8 else t.reg r)
    | .ret => u.pc = t.mem.read (t.reg SP).toNat
    | .iret => u.pc = t.mem.read ((t.reg SP).toNat + 8)
    | _ => u.pc.toNat = (t.pc.toNat + (encode s.env.config.opc i).length) % 256

/-- R30: no cycle changes `FL` unless its instruction is `CMP` or `IRET`. -/
def Obligations.FlagsChangeOnlyByCompareAndReturn : Prop :=
  ∀ s t : State, step s = .next t → t.fl ≠ s.fl →
    ∃ op i u, frontEnd s = .ok (op, i) u ∧ (i = .iret ∨ ∃ a b, i = .cmp a b)

/-- R30: `FL` is read by the conditional jumps only, and of `FL` only bit 0. With other flags (for `JEQ` and `JNE`: with the
same bit 0) every instruction does the same, and leaves those other flags unless it wrote `FL`. (Interrupt entry, which
pushes `FL`, is no instruction. An `IRET` that faults part-way has its own statement.) -/
def Obligations.OnlyConditionalJumpsReadTheFlags : Prop :=
  ∀ (i : Instr) (s t : State) (other : FlagBits), s.status = .running → exec i s = .next t →
    (flagE other = flagE s.fl ∨ ∀ a, i ≠ .jeq a ∧ i ≠ .jne a) →
    (i = .iret → (s.reg SP).toNat + 9 ≤ s.env.config.spInit.toNat) →
    exec i (setFl other s) = .next (setFl (if i.writesFlags && !t.isFaulted then t.fl else other) t)

/-- R40: the console is only ever appended to, by at most one event a cycle, and only by `PRN` and `PRA`. -/
def Obligations.ConsoleOnlyGrows : Prop :=
  ∀ s t : State, step s = .next t →
    t.console = s.console ∨
    ∃ op i u e, frontEnd s = .ok (op, i) u ∧ i.emits = true ∧ t.console = s.console ++ [e]

/-- R34, R38: a running machine takes exactly one cycle's inputs a step, listed ones or the free draw its counter names,
a stopped one takes none. -/
def Obligations.EachRunningCycleTakesOneInput : Prop :=
  ∀ s t : State, step s = .next t →
    (s.status = .running → t.env.inputs = s.env.inputs.tail ∧ t.env.drawn = s.env.drawn + 1) ∧
    (s.status ≠ .running → t.env = s.env)

/-- The frame of every instruction (R22, R30, R40, R57): registers other than its destinations (and the stack pointer of a
stack instruction), `FL` unless it is `CMP` or `IRET`, every byte of memory but the one it stores to, the console unless
it prints, and configuration and inputs to come are unchanged. -/
def Obligations.InstructionsKeepWhatTheyDoNotWrite : Prop :=
  ∀ (i : Instr) (s t : State), exec i s = .next t →
    (∀ r, regOp r ∉ i.destinations → t.reg r = s.reg r) ∧
    (i.writesFlags = false → t.fl = s.fl) ∧
    (∀ a, i.storeAddress s ≠ some a → t.mem.read a = s.mem.read a) ∧
    (i.emits = false → t.console = s.console) ∧
    t.env = s.env

/-- R123, R205: an instruction that faults changes nothing but `status`; only `IRET` can fault part-way. -/
def Obligations.FaultingInstructionsChangeOnlyTheStatus : Prop :=
  ∀ (i : Instr) (s t : State) (f : Fault), i ≠ .iret → s.status = .running → exec i s = .next t →
    t.status = .faulted f → t = takeFault f s

/-- R53, R200: which instruction can raise which fault. No instruction raises a decode fault or a memory fault, and a
well-formed instruction raises no register fault. -/
def Obligations.FaultKindsFollowTheCauseTable : Prop :=
  ∀ (i : Instr) (s t : State) (f : Fault), s.status = .running → exec i s = .next t → t.status = .faulted f →
    match f with
    | .unsupportedInstruction _ => False
    | .unsupportedOperation _ => False
    | .divisionByZero p => p = s.pc ∧ ∃ a b, i = .div a b
    | .outOfRange (.mem _) => False
    | .outOfRange (.reg a) => 8 ≤ a.toNat ∧ a ∈ i.regOperands ∧ i.wellFormed = false
    | .outOfRange .stackPush => ∃ a, i = .push a ∨ i = .call a
    | .outOfRange .stackPop => i = .ret ∨ i = .iret ∨ ∃ a, i = .pop a

/-- R40: the console is write-only. Two runs that differ only in earlier output go through the same states otherwise. -/
def Obligations.ConsoleDoesNotInfluenceTheMachine : Prop :=
  ∀ (s t : State) (earlier : List Event), step s = .next t →
    step { s with console := earlier ++ s.console } = .next { t with console := earlier ++ t.console }

/-- R38: a cycle depends on its own inputs only, not on those of later cycles. -/
def Obligations.LaterInputsDoNotInfluenceACycle : Prop :=
  ∀ (s t : State) (now : Input) (later other : List Input), s.status = .running → s.env.inputs = now :: later →
    step s = .next t →
    step { s with env := { s.env with inputs := now :: other } } = .next { t with env := { t.env with inputs := other } }

/-- R6: the configuration is a parameter of a run: no step changes it. -/
def Obligations.ConfigurationNeverChanges : Prop :=
  ∀ s t : State, step s = .next t → t.env.config = s.env.config

/-- R122: the model's step is the spec's `step : Config -> State -> tick -> key -> State`, at the configuration and the
cycle's inputs that the state supplies (log entries 6, 25). That function is the identity on a machine that is not running,
for every configuration, and its result depends on nothing but its arguments: not on the inputs still to come. -/
def Obligations.StepIsTheStepOfTheSpec : Prop :=
  (∀ s : State, s.status = .running →
    step s = .next (stepWith s.env.config (sampled s) (currentInput s).tick (currentInput s).key)) ∧
  (∀ (c : Config) (s : State) (tick : Bool) (key : Option Byte), s.status ≠ .running →
    stepWith c s tick key = s.withConfig c) ∧
  (∀ (c : Config) (s t : State) (tick : Bool) (key : Option Byte), (s.withConfig c).machine = (t.withConfig c).machine →
    (stepWith c s tick key).machine = (stepWith c t tick key).machine)

/-- R38, R122: the environment may choose `tick` and `key` of every cycle, for ever, without any limit, and the invariant
holds along every such run of every legal configuration. -/
def Obligations.EveryRunKeepsTheInvariant : Prop :=
  ∀ (s : State) (choice : Nat → Input) (n : Nat), s.Inv → (runWith s.env.config choice n s).Inv

/-- R38, R122: every choice of inputs is a run of the model's step: with the first `n` choices listed, `n` steps do what the
spec's step does under those choices. -/
def Obligations.EveryChoiceOfInputsIsARun : Prop :=
  ∀ (s : State) (choice : Nat → Input) (n : Nat) (later : List Input),
    s.env.inputs = (List.range n).map choice ++ later →
    ∃ t, stepMany n s = .next t ∧ t.machine = (runWith s.env.config choice n s).machine

/-- R65, R112: a byte stored by `ST` is the opcode the next fetch from that address reads. -/
def Obligations.StoredByteIsFetchedNext : Prop :=
  ∀ (s t : State) (r q : Fin 8), (s.reg r).toNat ≤ 253 → exec (.st (regOp r) (regOp q)) s = .next t →
    ∃ w u, fetch (setPc (s.reg r) t) = .ok w u ∧ w.op = s.reg q

/-- R80, R112: an instruction laid by `withFetchWord` is the one the next step runs, when no interrupt intervenes (R111),
on a machine whose opcodes are those of the table (log entries 1, 24). -/
def Obligations.WithFetchWordRunsTheWord : Prop :=
  ∀ (s : State) (nbits w : Nat) (i : Instr), s.status = .running → s.env.inputs.headD quietInput = quietInput →
    s.env.config.opc = Config.core.opc → serviceable s = 0#8 → s.pc.toNat ≤ 253 → decodeTableWord nbits w = some i →
    step (s.withFetchWord nbits w) =
      afterExec (tableByte nbits w 0) (exec i (sampled (s.withFetchWord nbits w)))

/-- R207: the diagnostic trace shows `PC`, the bytes from `PC` on that exist, at most three, and the registers. -/
def Obligations.TraceShowsTheExistingBytes : Prop :=
  ∀ s : State, s.report.pc = s.pc ∧ (∀ r, s.report.regs[r] = s.reg r) ∧
    s.report.bytes.length = min 3 (256 - s.pc.toNat) ∧
    ∀ k, k < s.report.bytes.length → s.report.bytes[k]? = some (s.mem.read (s.pc.toNat + k))
end

