-- ==== Sys2Proof/Laws/Config.lean ====
section
/-! SUPPORT. Configurations: every opcode assignment has a table, and the default configuration is a legal one. -/

namespace Sys2Proof

@[simp] theorem OpcTable.byte_of (f : Mnemonic → Byte) : (OpcTable.of f).byte = f := by
  funext m
  cases m <;> rfl

@[simp] theorem Config.core_opc : Config.core.opc = defaultOpc := OpcTable.byte_of defaultOpc

theorem defaultOpc_legal : OpcLegal defaultOpc where
  injective := by
    intro m n h
    cases m <;> cases n <;> first | rfl | exact absurd h (by decide)
  operands := by intro m; cases m <;> rfl
  alu := by intro m; cases m <;> rfl
  setsPc := by intro m; cases m <;> rfl
  ldi := rfl
  prn := rfl
  hlt := rfl

/-- The default configuration meets the constraints of R6. -/
theorem Config.core_legal : Config.core.Legal where
  spPositive := by decide
  vectorsInMemory := by decide
  keyIsNoVector := by decide
  stackBelowVectors := by decide
  stackBelowKey := by decide
  opcLegal := Config.core_opc ▸ defaultOpc_legal

end Sys2Proof
end

