-- ==== Sys2Proof/Laws/Memory.lean ====
section
/-! SUPPORT. The laws of the storage: a read after a write (20_memory.md R50), and that every memory operation keeps the
canonical form. -/

namespace Sys2Proof.Machine

theorem Memory.read_without (m : Memory) (a b : Nat) :
    (m.without a).read b = if b = a then Memory.unlisted else m.read b := by
  induction m with
  | nil => simp [Memory.without, Memory.read]
  | cons c m ih =>
    obtain ⟨k, v⟩ := c
    simp only [Memory.without] at ih
    by_cases hk : k = a
    · subst hk
      simp only [Memory.without, ne_eq, not_true_eq_false, decide_false, Bool.false_eq_true, not_false_eq_true,
        List.filter_cons_of_neg, ih, Memory.read]
      split <;> simp_all [eq_comm]
    · simp only [Memory.without, hk, ne_eq, not_false_eq_true, decide_true, List.filter_cons_of_pos, Memory.read, ih]
      by_cases hb : b = a
      · subst hb; simp [hk]
      · simp [hb]

theorem Memory.read_place (m : Memory) (a b : Nat) (v : Byte) (h : ∀ c ∈ m, c.1 ≠ a) :
    (Memory.place a v m).read b = if b = a then v else m.read b := by
  induction m with
  | nil => simp [Memory.place, Memory.read, eq_comm]
  | cons c m ih =>
    obtain ⟨k, w⟩ := c
    have hk : k ≠ a := h (k, w) (by simp)
    have ih := ih fun c hc => h c (by simp [hc])
    unfold Memory.place
    split
    · simp [Memory.read, eq_comm]
    · simp only [Memory.read, ih]
      by_cases hb : b = a
      · subst hb; simp [hk]
      · simp [hb]

/-- A write is seen by a read of its own address and by no other read (R50). -/
@[simp] theorem Memory.read_write (m : Memory) (a b : Nat) (v : Byte) :
    (m.write a v).read b = if b = a then v else m.read b := by
  unfold Memory.write
  split
  · next hv => rw [Memory.read_without, hv]
  · rw [Memory.read_place _ _ _ _ (by simp [Memory.without]), Memory.read_without]
    split <;> rfl

theorem Memory.wfFrom_weaken {m : Memory} {lo lo' : Nat} (h : m.wfFrom lo = true) (hl : lo' ≤ lo) :
    m.wfFrom lo' = true := by
  cases m with
  | nil => rfl
  | cons c m =>
    obtain ⟨k, v⟩ := c
    simp only [Memory.wfFrom, Bool.and_eq_true, decide_eq_true_eq] at h ⊢
    exact ⟨⟨⟨by omega, h.1.1.2⟩, h.1.2⟩, h.2⟩

theorem Memory.wfFrom_without {m : Memory} {lo : Nat} (a : Nat) (h : m.wfFrom lo = true) :
    (m.without a).wfFrom lo = true := by
  induction m generalizing lo with
  | nil => rfl
  | cons c m ih =>
    obtain ⟨k, v⟩ := c
    simp only [Memory.wfFrom, Bool.and_eq_true, decide_eq_true_eq] at h
    by_cases hk : k = a
    · have : Memory.without ((k, v) :: m) a = Memory.without m a := by simp [Memory.without, hk]
      rw [this]
      exact Memory.wfFrom_weaken (ih h.2) (Nat.le_succ_of_le h.1.1.1)
    · have : Memory.without ((k, v) :: m) a = (k, v) :: Memory.without m a := by simp [Memory.without, hk]
      rw [this]
      simp only [Memory.wfFrom, Bool.and_eq_true, decide_eq_true_eq]
      exact ⟨h.1, ih h.2⟩

theorem Memory.wfFrom_place {m : Memory} {lo a : Nat} {v : Byte} (h : m.wfFrom lo = true) (hm : ∀ c ∈ m, c.1 ≠ a)
    (hl : lo ≤ a) (ha : a < memSize) (hv : v ≠ Memory.unlisted) : (Memory.place a v m).wfFrom lo = true := by
  induction m generalizing lo with
  | nil => simp [Memory.place, Memory.wfFrom, hl, ha, hv]
  | cons c m ih =>
    obtain ⟨k, w⟩ := c
    have hk : k ≠ a := hm (k, w) (by simp)
    simp only [Memory.wfFrom, Bool.and_eq_true, decide_eq_true_eq] at h
    unfold Memory.place
    split
    · simp only [Memory.wfFrom, Bool.and_eq_true, decide_eq_true_eq]
      exact ⟨⟨⟨hl, ha⟩, hv⟩, ⟨⟨by omega, h.1.1.2⟩, h.1.2⟩, h.2⟩
    · simp only [Memory.wfFrom, Bool.and_eq_true, decide_eq_true_eq]
      exact ⟨h.1, ih h.2 (fun c hc => hm c (by simp [hc])) (by omega)⟩

/-- Storing a byte inside memory keeps the canonical form. -/
theorem Memory.wf_write {m : Memory} {a : Nat} (v : Byte) (h : m.wf = true) (ha : a < memSize) :
    (m.write a v).wf = true := by
  unfold Memory.write
  split
  · exact Memory.wfFrom_without a h
  · next hv => exact Memory.wfFrom_place (Memory.wfFrom_without a h) (by simp [Memory.without]) (Nat.zero_le _) ha hv

/-- Loading an image that fits keeps the canonical form. -/
theorem Memory.wf_load {image : List Byte} {start : Nat} {m : Memory} (h : m.wf = true)
    (hl : start + image.length ≤ memSize) : (Memory.load image start m).wf = true := by
  induction image generalizing start m with
  | nil => exact h
  | cons v rest ih =>
    simp only [List.length_cons] at hl
    exact ih (Memory.wf_write v h (by omega)) (by omega)

/-- A canonical memory lists no address outside 0..255. -/
theorem Memory.read_outside {m : Memory} {lo : Nat} (h : m.wfFrom lo = true) (a : Nat) (ha : memSize ≤ a) :
    m.read a = Memory.unlisted := by
  induction m generalizing lo with
  | nil => rfl
  | cons c m ih =>
    obtain ⟨k, v⟩ := c
    simp only [Memory.wfFrom, Bool.and_eq_true, decide_eq_true_eq] at h
    unfold Memory.read
    rw [if_neg (by omega)]
    exact ih h.2

end Sys2Proof.Machine
end

