-- ==== Sys2Proof/Laws/State.lean ====
section
/-! SUPPORT. What each update of the state does to each field, so that no later proof unfolds a record update. The names
`SP`, `IS`, `IM` are normalised to the indices 7, 6, 5. -/

namespace Sys2Proof.Machine

variable (s : State) (i j : Fin 8) (v : Byte) (m : Memory) (e : Event) (f : Fault) (fl : FlagBits)

@[simp] theorem SP_eq : SP = 7 := rfl
@[simp] theorem IS_eq : IS = 6 := rfl
@[simp] theorem IM_eq : IM = 5 := rfl

/-- The one register written has the new value, every other one its old value. -/
@[simp] theorem State.reg_setReg : (s.setReg i v).reg j = if j = i then v else s.reg j := by
  simp only [State.reg, State.setReg, Fin.getElem_fin, Vector.getElem_set, Fin.ext_iff]
  by_cases h : j.val = i.val
  · simp [h]
  · rw [if_neg (fun h' => h h'.symm), if_neg h]

@[simp] theorem State.setReg_pc : (s.setReg i v).pc = s.pc := rfl
@[simp] theorem State.setReg_fl : (s.setReg i v).fl = s.fl := rfl
@[simp] theorem State.setReg_mem : (s.setReg i v).mem = s.mem := rfl
@[simp] theorem State.setReg_status : (s.setReg i v).status = s.status := rfl
@[simp] theorem State.setReg_console : (s.setReg i v).console = s.console := rfl
@[simp] theorem State.setReg_env : (s.setReg i v).env = s.env := rfl

@[simp] theorem State.setMem_reg : (s.setMem m).reg j = s.reg j := rfl
@[simp] theorem State.setMem_pc : (s.setMem m).pc = s.pc := rfl
@[simp] theorem State.setMem_fl : (s.setMem m).fl = s.fl := rfl
@[simp] theorem State.setMem_mem : (s.setMem m).mem = m := rfl
@[simp] theorem State.setMem_status : (s.setMem m).status = s.status := rfl
@[simp] theorem State.setMem_console : (s.setMem m).console = s.console := rfl
@[simp] theorem State.setMem_env : (s.setMem m).env = s.env := rfl

@[simp] theorem setPc_reg : (setPc v s).reg j = s.reg j := rfl
@[simp] theorem setPc_pc : (setPc v s).pc = v := rfl
@[simp] theorem setPc_fl : (setPc v s).fl = s.fl := rfl
@[simp] theorem setPc_mem : (setPc v s).mem = s.mem := rfl
@[simp] theorem setPc_status : (setPc v s).status = s.status := rfl
@[simp] theorem setPc_console : (setPc v s).console = s.console := rfl
@[simp] theorem setPc_env : (setPc v s).env = s.env := rfl

@[simp] theorem setFl_reg : (setFl fl s).reg j = s.reg j := rfl
@[simp] theorem setFl_pc : (setFl fl s).pc = s.pc := rfl
@[simp] theorem setFl_fl : (setFl fl s).fl = fl := rfl
@[simp] theorem setFl_mem : (setFl fl s).mem = s.mem := rfl
@[simp] theorem setFl_status : (setFl fl s).status = s.status := rfl
@[simp] theorem setFl_console : (setFl fl s).console = s.console := rfl
@[simp] theorem setFl_env : (setFl fl s).env = s.env := rfl

@[simp] theorem emit_reg : (emit e s).reg j = s.reg j := rfl
@[simp] theorem emit_pc : (emit e s).pc = s.pc := rfl
@[simp] theorem emit_fl : (emit e s).fl = s.fl := rfl
@[simp] theorem emit_mem : (emit e s).mem = s.mem := rfl
@[simp] theorem emit_status : (emit e s).status = s.status := rfl
@[simp] theorem emit_console : (emit e s).console = s.console ++ [e] := rfl
@[simp] theorem emit_env : (emit e s).env = s.env := rfl

@[simp] theorem halt_reg : (halt s).reg j = s.reg j := rfl
@[simp] theorem halt_pc : (halt s).pc = s.pc := rfl
@[simp] theorem halt_fl : (halt s).fl = s.fl := rfl
@[simp] theorem halt_mem : (halt s).mem = s.mem := rfl
@[simp] theorem halt_status : (halt s).status = .halted := rfl
@[simp] theorem halt_console : (halt s).console = s.console := rfl
@[simp] theorem halt_env : (halt s).env = s.env := rfl

@[simp] theorem takeFault_reg : (takeFault f s).reg j = s.reg j := rfl
@[simp] theorem takeFault_pc : (takeFault f s).pc = s.pc := rfl
@[simp] theorem takeFault_fl : (takeFault f s).fl = s.fl := rfl
@[simp] theorem takeFault_mem : (takeFault f s).mem = s.mem := rfl
@[simp] theorem takeFault_status : (takeFault f s).status = .faulted f := rfl
@[simp] theorem takeFault_console : (takeFault f s).console = s.console := rfl
@[simp] theorem takeFault_env : (takeFault f s).env = s.env := rfl

@[simp] theorem sampled_reg : (sampled s).reg j = s.reg j := rfl
@[simp] theorem sampled_pc : (sampled s).pc = s.pc := rfl
@[simp] theorem sampled_fl : (sampled s).fl = s.fl := rfl
@[simp] theorem sampled_mem : (sampled s).mem = s.mem := rfl
@[simp] theorem sampled_status : (sampled s).status = s.status := rfl
@[simp] theorem sampled_console : (sampled s).console = s.console := rfl
@[simp] theorem sampled_config : (sampled s).env.config = s.env.config := rfl
@[simp] theorem sampled_inputs : (sampled s).env.inputs = s.env.inputs.tail := rfl
@[simp] theorem sampled_drawn : (sampled s).env.drawn = s.env.drawn + 1 := rfl

@[simp] theorem withConfig_reg (c : Config) : (s.withConfig c).reg j = s.reg j := rfl
@[simp] theorem withConfig_pc (c : Config) : (s.withConfig c).pc = s.pc := rfl
@[simp] theorem withConfig_fl (c : Config) : (s.withConfig c).fl = s.fl := rfl
@[simp] theorem withConfig_mem (c : Config) : (s.withConfig c).mem = s.mem := rfl
@[simp] theorem withConfig_status (c : Config) : (s.withConfig c).status = s.status := rfl
@[simp] theorem withConfig_console (c : Config) : (s.withConfig c).console = s.console := rfl
@[simp] theorem withConfig_config (c : Config) : (s.withConfig c).env.config = c := rfl
@[simp] theorem withConfig_inputs (c : Config) : (s.withConfig c).env.inputs = s.env.inputs := rfl
@[simp] theorem withConfig_drawn (c : Config) : (s.withConfig c).env.drawn = s.env.drawn := rfl
theorem withConfig_self : s.withConfig s.env.config = s := rfl

@[simp] theorem stackUp_reg : (stackUp s).reg j = if j = 7 then s.reg 7 + 1#8 else s.reg j := by simp [stackUp]
@[simp] theorem stackUp_pc : (stackUp s).pc = s.pc := rfl
@[simp] theorem stackUp_fl : (stackUp s).fl = s.fl := rfl
@[simp] theorem stackUp_mem : (stackUp s).mem = s.mem := rfl
@[simp] theorem stackUp_status : (stackUp s).status = s.status := rfl
@[simp] theorem stackUp_console : (stackUp s).console = s.console := rfl
@[simp] theorem stackUp_env : (stackUp s).env = s.env := rfl

/-- Two states that agree register by register and field by field are equal. -/
theorem State.ext_of {s t : State} (hr : ∀ r, s.reg r = t.reg r) (hp : s.pc = t.pc) (hf : s.fl = t.fl)
    (hm : s.mem = t.mem) (hs : s.status = t.status) (hc : s.console = t.console) (he : s.env = t.env) : s = t := by
  have : s.regs = t.regs := Vector.ext fun k hk => hr ⟨k, hk⟩
  cases s
  cases t
  simp_all

end Sys2Proof.Machine
end

