-- ==== Sys2Proof/Laws/Ops.lean ====
section
/-! SUPPORT. One lemma per shared operation that says everything it can do; later proofs cite these and do not unfold the
operations. -/

namespace Sys2Proof.Machine

/-! ## Sequencing -/

@[simp] theorem Res.bind_ok {α β : Type} (v : α) (s : State) (k : α → State → Res β) : (Res.ok v s).bind k = k v s := rfl

@[simp] theorem Res.bind_raised {α β : Type} (f : Fault) (s : State) (k : α → State → Res β) :
    (Res.raised f s : Res α).bind k = .raised f s := rfl

@[simp] theorem Res.outcome_ok (s : State) : (Res.ok () s).outcome = .next s := rfl

@[simp] theorem Res.outcome_raised (f : Fault) (s : State) : (Res.raised f s).outcome = .next (takeFault f s) := rfl

/-- A sequence finishes exactly when both parts do. -/
theorem Res.bind_eq_ok {α β : Type} {r : Res α} {k : α → State → Res β} {v : β} {t : State} :
    r.bind k = .ok v t ↔ ∃ w u, r = .ok w u ∧ k w u = .ok v t := by
  cases r <;> simp [Res.bind]

/-- A sequence raises a fault when its first part does, or when its second part does. -/
theorem Res.bind_eq_raised {α β : Type} {r : Res α} {k : α → State → Res β} {f : Fault} {t : State} :
    r.bind k = .raised f t ↔ r = .raised f t ∨ ∃ w u, r = .ok w u ∧ k w u = .raised f t := by
  cases r <;> simp [Res.bind]

theorem Res.bind_assoc {α β γ : Type} (r : Res α) (k : α → State → Res β) (l : β → State → Res γ) :
    (r.bind k).bind l = r.bind fun v s => (k v s).bind l := by
  cases r <;> rfl

/-- An instruction answers a next state: its final state, or the one with the raised fault taken. -/
theorem Res.outcome_eq_next {r : Res Unit} {t : State} :
    r.outcome = .next t ↔ r = .ok () t ∨ ∃ f u, r = .raised f u ∧ t = takeFault f u := by
  cases r with
  | ok v s => simp [Res.outcome]
  | raised f s => simp [Res.outcome, eq_comm]

theorem Res.outcome_is_next (r : Res Unit) : ∃ t, r.outcome = .next t := by
  cases r
  · exact ⟨_, rfl⟩
  · exact ⟨_, rfl⟩

/-! ## Register operands -/

@[simp] theorem regOp_toNat (r : Fin 8) : (regOp r).toNat = r.val := by
  simp only [regOp, BitVec.toNat_ofNat]
  omega

/-- An operand byte below 8 names a register. -/
theorem exists_regOp {a : Byte} (h : a.toNat < 8) : ∃ r, a = regOp r :=
  ⟨⟨a.toNat, h⟩, BitVec.eq_of_toNat_eq (by simp)⟩

theorem regOp_injective {r q : Fin 8} (h : regOp r = regOp q) : r = q := by
  have := congrArg BitVec.toNat h
  simp only [regOp_toNat] at this
  exact Fin.ext this

@[simp] theorem checkReg_regOp (r : Fin 8) (s : State) : checkReg (regOp r) s = .ok r s := by
  have h : (regOp r).toNat < 8 := by simp
  simp [checkReg]

theorem checkReg_high {a : Byte} (h : 8 ≤ a.toNat) (s : State) : checkReg a s = .raised (.outOfRange (.reg a)) s := by
  simp [checkReg, Nat.not_lt.mpr h]

@[simp] theorem readReg_regOp (r : Fin 8) (s : State) : readReg (regOp r) s = .ok (s.reg r) s := by simp [readReg]

theorem readReg_high {a : Byte} (h : 8 ≤ a.toNat) (s : State) : readReg a s = .raised (.outOfRange (.reg a)) s := by
  simp [readReg, checkReg_high h]

@[simp] theorem writeReg_regOp (r : Fin 8) (v : Byte) (s : State) : writeReg (regOp r) v s = .ok () (s.setReg r v) := by
  simp [writeReg]

theorem writeReg_high {a : Byte} (h : 8 ≤ a.toNat) (v : Byte) (s : State) :
    writeReg a v s = .raised (.outOfRange (.reg a)) s := by
  simp [writeReg, checkReg_high h]

/-- Every operand byte either names a register or is above 7. -/
theorem operand_cases (a : Byte) : (∃ r, a = regOp r) ∨ 8 ≤ a.toNat := by
  by_cases h : a.toNat < 8
  · exact .inl (exists_regOp h)
  · exact .inr (Nat.not_lt.mp h)

/-! ## Memory -/

/-- A byte address is always inside memory (R53). -/
theorem byte_lt_memSize (b : Byte) : b.toNat < memSize := b.isLt

@[simp] theorem memRead_byte (b : Byte) (s : State) : memRead b.toNat s = .ok (s.mem.read b.toNat) s := by
  simp [memRead, byte_lt_memSize]

theorem memRead_inside {a : Nat} (h : a < memSize) (s : State) : memRead a s = .ok (s.mem.read a) s := by
  simp [memRead, h]

theorem memRead_outside {a : Nat} (h : memSize ≤ a) (s : State) : memRead a s = .raised (.outOfRange (.mem a)) s := by
  simp [memRead, Nat.not_lt.mpr h]

@[simp] theorem memWrite_byte (b : Byte) (v : Byte) (s : State) :
    memWrite b.toNat v s = .ok () (s.setMem (s.mem.write b.toNat v)) := by
  simp [memWrite, byte_lt_memSize]

/-! ## The stack -/

/-- What a push that does not fault leaves (R170). -/
def pushed (v : Byte) (s : State) : State :=
  (s.setReg 7 (s.reg 7 - 1#8)).setMem (s.mem.write (s.reg 7 - 1#8).toNat v)

@[simp] theorem pushed_reg (v : Byte) (s : State) (j : Fin 8) :
    (pushed v s).reg j = if j = 7 then s.reg 7 - 1#8 else s.reg j := by simp [pushed]
@[simp] theorem pushed_pc (v : Byte) (s : State) : (pushed v s).pc = s.pc := rfl
@[simp] theorem pushed_fl (v : Byte) (s : State) : (pushed v s).fl = s.fl := rfl
@[simp] theorem pushed_mem (v : Byte) (s : State) : (pushed v s).mem = s.mem.write (s.reg 7 - 1#8).toNat v := rfl
@[simp] theorem pushed_status (v : Byte) (s : State) : (pushed v s).status = s.status := rfl
@[simp] theorem pushed_console (v : Byte) (s : State) : (pushed v s).console = s.console := rfl
@[simp] theorem pushed_env (v : Byte) (s : State) : (pushed v s).env = s.env := rfl

theorem push_ok {s : State} (h : s.reg 7 ≠ 0#8) (v : Byte) : push v s = .ok () (pushed v s) := by
  simp [push, stackDown, h, pushed]

theorem push_full {s : State} (h : s.reg 7 = 0#8) (v : Byte) : push v s = .raised (.outOfRange .stackPush) s := by
  simp [push, stackDown, h]

theorem stackTop_ok {c : Config} {s : State} (h : (s.reg 7).toNat < c.spInit.toNat) :
    stackTop c s = .ok (s.mem.read (s.reg 7).toNat) s := by
  simp [stackTop, Nat.not_le.mpr h]

theorem stackTop_empty {c : Config} {s : State} (h : c.spInit.toNat ≤ (s.reg 7).toNat) :
    stackTop c s = .raised (.outOfRange .stackPop) s := by
  simp [stackTop, h]

theorem pop_ok {c : Config} {s : State} (h : (s.reg 7).toNat < c.spInit.toNat) :
    pop c s = .ok (s.mem.read (s.reg 7).toNat) (stackUp s) := by
  simp [pop, stackTop_ok h]

theorem pop_empty {c : Config} {s : State} (h : c.spInit.toNat ≤ (s.reg 7).toNat) :
    pop c s = .raised (.outOfRange .stackPop) s := by
  simp [pop, stackTop_empty h]

/-! ## Operand forms -/

theorem onTwoRegs_ok (f : Byte → Byte → Byte) (r q : Fin 8) (s : State) :
    onTwoRegs f (regOp r) (regOp q) s = .ok () (s.setReg r (f (s.reg r) (s.reg q))) := by
  simp [onTwoRegs]

theorem onTwoRegs_highA {a : Byte} (h : 8 ≤ a.toNat) (f : Byte → Byte → Byte) (b : Byte) (s : State) :
    onTwoRegs f a b s = .raised (.outOfRange (.reg a)) s := by
  simp [onTwoRegs, readReg_high h]

theorem onTwoRegs_highB {b : Byte} (h : 8 ≤ b.toNat) (f : Byte → Byte → Byte) (r : Fin 8) (s : State) :
    onTwoRegs f (regOp r) b s = .raised (.outOfRange (.reg b)) s := by
  simp [onTwoRegs, readReg_high h]

theorem onOneReg_ok (f : Byte → Byte) (r : Fin 8) (s : State) :
    onOneReg f (regOp r) s = .ok () (s.setReg r (f (s.reg r))) := by
  simp [onOneReg]

theorem onOneReg_high {a : Byte} (h : 8 ≤ a.toNat) (f : Byte → Byte) (s : State) :
    onOneReg f a s = .raised (.outOfRange (.reg a)) s := by
  simp [onOneReg, readReg_high h]

theorem onRegAndCount_ok (f : Byte → Nat → Byte) (r : Fin 8) (n : Byte) (s : State) :
    onRegAndCount f (regOp r) n s = .ok () (s.setReg r (f (s.reg r) n.toNat)) := by
  simp [onRegAndCount]

theorem onRegAndCount_high {a : Byte} (h : 8 ≤ a.toNat) (f : Byte → Nat → Byte) (n : Byte) (s : State) :
    onRegAndCount f a n s = .raised (.outOfRange (.reg a)) s := by
  simp [onRegAndCount, readReg_high h]

theorem loadThrough_ok (r : Fin 8) (s : State) :
    loadThrough (regOp r) s = .ok (s.mem.read (s.reg r).toNat) s := by
  simp [loadThrough]

theorem loadThrough_high {b : Byte} (h : 8 ≤ b.toNat) (s : State) :
    loadThrough b s = .raised (.outOfRange (.reg b)) s := by
  simp [loadThrough, readReg_high h]

theorem jumpTo_ok (r : Fin 8) (s : State) : jumpTo (regOp r) s = .ok () (setPc (s.reg r) s) := by simp [jumpTo]

theorem jumpTo_high {a : Byte} (h : 8 ≤ a.toNat) (s : State) : jumpTo a s = .raised (.outOfRange (.reg a)) s := by
  simp [jumpTo, readReg_high h]

/-! ## Lists of registers on the stack (R186, R221) -/

theorem stackUp_toNat {c : Config} {s : State} (h : (s.reg 7).toNat < c.spInit.toNat) :
    ((stackUp s).reg 7).toNat = (s.reg 7).toNat + 1 := by
  have := c.spInit.isLt
  simp
  omega

/-- What popping a list of registers (none of them `x[7]`, none twice) does, wherever the stack ends. -/
theorem popRegs_spec (c : Config) (rs : List (Fin 8)) (s : State) (h7 : 7 ∉ rs) (hd : rs.Nodup) :
    ∃ t, (rs.length = 0 ∨ (s.reg 7).toNat + rs.length ≤ c.spInit.toNat → popRegs c rs s = .ok () t) ∧
      (rs.length ≠ 0 → c.spInit.toNat < (s.reg 7).toNat + rs.length →
        popRegs c rs s = .raised (.outOfRange .stackPop) t) ∧
      (t.reg 7).toNat = max (s.reg 7).toNat (min ((s.reg 7).toNat + rs.length) c.spInit.toNat) ∧
      (∀ k (hk : k < rs.length), t.reg rs[k] =
        if (s.reg 7).toNat + k < c.spInit.toNat then s.mem.read ((s.reg 7).toNat + k) else s.reg rs[k]) ∧
      (∀ r, r ≠ 7 → r ∉ rs → t.reg r = s.reg r) ∧
      t.mem = s.mem ∧ t.fl = s.fl ∧ t.pc = s.pc ∧ KeepsRun s t := by
  induction rs generalizing s with
  | nil =>
    exact ⟨s, fun _ => rfl, by simp, by simp, by simp, fun _ _ _ => rfl, rfl, rfl, rfl, rfl, rfl, rfl⟩
  | cons r rs ih =>
    simp only [List.mem_cons, not_or, List.nodup_cons] at h7 hd
    by_cases hs : (s.reg 7).toNat < c.spInit.toNat
    · have hup : (((stackUp s).setReg r (s.mem.read (s.reg 7).toNat)).reg 7).toNat = (s.reg 7).toNat + 1 := by
        rw [State.reg_setReg, if_neg h7.1]; exact stackUp_toNat hs
      obtain ⟨t, h0, h1, h2, h3, h4, h5, h6, h8, h9⟩ :=
        ih ((stackUp s).setReg r (s.mem.read (s.reg 7).toNat)) h7.2 hd.2
      refine ⟨t, fun hc => ?_, fun _ hc => ?_, ?_, ?_, ?_, h5, h6, h8, h9⟩
      · simp only [List.length_cons] at hc
        simp only [popRegs, pop_ok hs, Res.bind_ok]
        exact h0 (.inr (by omega))
      · simp only [List.length_cons] at hc
        simp only [popRegs, pop_ok hs, Res.bind_ok]
        exact h1 (by omega) (by omega)
      · rw [h2, hup]; simp only [List.length_cons]; omega
      · intro k hk
        cases k with
        | zero =>
          simp only [List.getElem_cons_zero, Nat.add_zero, hs, if_true]
          rw [h4 r (Ne.symm h7.1) hd.1]; simp
        | succ k =>
          simp only [List.length_cons, Nat.add_lt_add_iff_right] at hk
          simp only [List.getElem_cons_succ]
          rw [h3 k hk, hup]
          have hne : rs[k] ≠ r := fun he => hd.1 (he ▸ List.getElem_mem hk)
          have hne7 : rs[k] ≠ 7 := fun he => h7.2 (he ▸ List.getElem_mem hk)
          simp only [State.setReg_mem, stackUp_mem, State.reg_setReg, hne, hne7, if_false, stackUp_reg]
          rw [Nat.add_assoc, Nat.add_comm 1 k]
      · intro q hq hm
        simp only [List.mem_cons, not_or] at hm
        rw [h4 q hq hm.2]
        simp [hm.1, hq]
    · refine ⟨s, fun hc => ?_, fun _ _ => ?_, ?_, ?_, fun _ _ _ => rfl, rfl, rfl, rfl, rfl, rfl, rfl⟩
      · simp only [List.length_cons] at hc
        omega
      · simp only [popRegs, pop_empty (Nat.not_lt.mp hs), Res.bind_raised]
      · omega
      · intro k hk
        rw [if_neg (by omega)]

/-- What pushing the values of a list of registers (none of them `x[7]`) does, wherever the stack ends. -/
theorem pushRegs_spec (rs : List (Fin 8)) (s : State) (h7 : 7 ∉ rs) :
    ∃ t, (rs.length ≤ (s.reg 7).toNat → pushRegs rs s = .ok () t) ∧
      ((s.reg 7).toNat < rs.length → pushRegs rs s = .raised (.outOfRange .stackPush) t) ∧
      (t.reg 7).toNat = (s.reg 7).toNat - rs.length ∧
      (∀ k (hk : k < rs.length), k < (s.reg 7).toNat → t.mem.read ((s.reg 7).toNat - 1 - k) = s.reg rs[k]) ∧
      (∀ a, a < (s.reg 7).toNat - rs.length ∨ (s.reg 7).toNat ≤ a → t.mem.read a = s.mem.read a) ∧
      (∀ r, r ≠ 7 → t.reg r = s.reg r) ∧
      t.fl = s.fl ∧ t.pc = s.pc ∧ KeepsRun s t := by
  induction rs generalizing s with
  | nil =>
    exact ⟨s, fun _ => rfl, by simp, by simp, by simp, fun _ _ => rfl, fun _ _ => rfl, rfl, rfl, rfl, rfl, rfl⟩
  | cons r rs ih =>
    simp only [List.mem_cons, not_or] at h7
    by_cases h0 : s.reg 7 = 0#8
    · refine ⟨s, ?_, ?_, ?_, ?_, fun _ _ => rfl, fun _ _ => rfl, rfl, rfl, rfl, rfl, rfl⟩
      · simp [h0]
      · simp [pushRegs, push_full h0]
      · simp [h0]
      · simp [h0]
    · have hpos : (s.reg 7).toNat ≠ 0 := fun h => h0 (BitVec.eq_of_toNat_eq (by simpa using h))
      have hdn : ((pushed (s.reg r) s).reg 7).toNat = (s.reg 7).toNat - 1 := by
        simp [BitVec.toNat_sub]; omega
      have hdn' : (s.reg 7 - 1#8).toNat = (s.reg 7).toNat - 1 := by simpa using hdn
      obtain ⟨t, ho, h1, h2, h3, h4, h5, h6⟩ := ih (pushed (s.reg r) s) h7.2
      refine ⟨t, fun hc => ?_, fun hc => ?_, ?_, ?_, ?_, ?_, h6⟩
      · simp only [List.length_cons] at hc
        simp only [pushRegs, push_ok h0, Res.bind_ok]
        exact ho (by omega)
      · simp only [List.length_cons] at hc
        simp only [pushRegs, push_ok h0, Res.bind_ok]
        exact h1 (by omega)
      · rw [h2, hdn]; simp only [List.length_cons]; omega
      · intro k hk hlt
        cases k with
        | zero =>
          rw [h4 _ (by rw [hdn]; omega)]
          simp [hdn']
        | succ k =>
          simp only [List.length_cons, Nat.add_lt_add_iff_right] at hk
          have hne7 : rs[k] ≠ 7 := fun he => h7.2 (he ▸ List.getElem_mem hk)
          have := h3 k hk (by rw [hdn]; omega)
          simp only [List.getElem_cons_succ]
          rw [hdn] at this
          rw [show (s.reg 7).toNat - 1 - (k + 1) = (s.reg 7).toNat - 1 - 1 - k by omega, this]
          simp [hne7]
      · intro a ha
        simp only [List.length_cons] at ha
        rw [h4 a (by rw [hdn]; omega)]
        simp only [pushed_mem, Memory.read_write, hdn']
        rw [if_neg (by omega)]
      · intro q hq
        rw [h5 q hq]
        simp [hq]

end Sys2Proof.Machine
end

