-- ==== Sys2Proof/Laws/Interrupts.lean ====
section
/-! SUPPORT. One lemma per operation of the interrupt controller (60_exceptions.md Part B). -/

namespace Sys2Proof.Machine

theorem toNat_pred {b : Byte} (h : b ≠ 0#8) : (b - 1#8).toNat = b.toNat - 1 := by
  have : b.toNat ≠ 0 := fun h' => h (BitVec.eq_of_toNat_eq (by simpa using h'))
  simp [BitVec.toNat_sub]
  omega

/-- Entry pushes the registers in the order of their indices (R221). -/
theorem savedRegs_getElem (j : Nat) (hj : j < 7) :
    ([0, 1, 2, 3, 4, 5, 6] : List (Fin 8))[j] = ⟨j, Nat.lt_succ_of_lt hj⟩ := by
  interval_cases j <;> rfl

/-- The low seven bytes of a frame are `x[6]`..`x[0]`. -/
theorem frameByte_reg (s : State) (k : Fin 9) (hk : k.val ≤ 6) : frameByte s k = s.reg ⟨6 - k.val, by omega⟩ := by
  fin_cases k <;> first | rfl | exact absurd hk (by decide)

/-- The nine pushes of an entry, wherever the stack runs out: the bytes that fit are the top of the frame (R221, R224). -/
theorem pushContext_spec (s : State) :
    ∃ t, (9 ≤ (s.reg 7).toNat → pushContext s = .ok () t) ∧
      ((s.reg 7).toNat < 9 → pushContext s = .raised (.outOfRange .stackPush) t) ∧
      (t.reg 7).toNat = (s.reg 7).toNat - 9 ∧
      (∀ k : Fin 9, 9 - (s.reg 7).toNat ≤ k.val → t.mem.read (k.val + (s.reg 7).toNat - 9) = frameByte s k) ∧
      (∀ a, a < (s.reg 7).toNat - 9 ∨ (s.reg 7).toNat ≤ a → t.mem.read a = s.mem.read a) ∧
      (∀ r, r ≠ 7 → t.reg r = s.reg r) ∧
      t.fl = s.fl ∧ t.pc = s.pc ∧ KeepsRun s t := by
  by_cases h0 : s.reg 7 = 0#8
  · refine ⟨s, ?_, fun _ => ?_, ?_, ?_, fun _ _ => rfl, fun _ _ => rfl, rfl, rfl, rfl, rfl, rfl⟩
    · simp [h0]
    · simp [pushContext, push_full h0]
    · simp [h0]
    · simp only [h0]
      intro k hk
      have := k.isLt
      simp at hk
      omega
  have e1 := toNat_pred h0
  have p0 : (s.reg 7).toNat ≠ 0 := fun h => h0 (BitVec.eq_of_toNat_eq (by simpa using h))
  by_cases h1 : s.reg 7 - 1#8 = 0#8
  · have h1' : (pushed s.pc s).reg 7 = 0#8 := by simpa using h1
    have e : (s.reg 7).toNat = 1 := by rw [h1] at e1; simp at e1; omega
    refine ⟨pushed s.pc s, ?_, fun _ => ?_, ?_, ?_, ?_, ?_, rfl, rfl, rfl, rfl, rfl⟩
    · omega
    · simp only [pushContext, push_ok h0, Res.bind_ok, push_full h1', Res.bind_raised]
    · simp [h1, e]
    · intro k hk
      have : k = 8 := by omega
      subst this
      simp [e, e1, frameByte]
    · intro a ha
      rw [pushed_mem, Memory.read_write, if_neg (by omega)]
    · intro r hr
      simp [hr]
  have e2 := toNat_pred h1
  have p1 : (s.reg 7 - 1#8).toNat ≠ 0 := fun h => h1 (BitVec.eq_of_toNat_eq (by simpa using h))
  have h1' : (pushed s.pc s).reg 7 ≠ 0#8 := by simpa using h1
  have e3 : ((pushed (flagByte s.fl) (pushed s.pc s)).reg 7).toNat = (s.reg 7).toNat - 2 := by
    simp only [pushed_reg, if_true]; omega
  obtain ⟨t, t1, t2, t3, t4, t5, t6, t7, t8, t9⟩ :=
    pushRegs_spec [0, 1, 2, 3, 4, 5, 6] (pushed (flagByte s.fl) (pushed s.pc s)) (by decide)
  simp only [e3, List.length_cons, List.length_nil] at t1 t2 t3 t4 t5
  refine ⟨t, fun h => ?_, fun h => ?_, ?_, ?_, ?_, ?_, t7, t8, t9⟩
  · simp only [pushContext, push_ok h0, Res.bind_ok, pushed_fl, push_ok h1']
    exact t1 (by omega)
  · simp only [pushContext, push_ok h0, Res.bind_ok, pushed_fl, push_ok h1']
    exact t2 (by omega)
  · omega
  · intro k hk
    have hk9 := k.isLt
    by_cases h8 : k = 8
    · subst h8
      rw [t5 _ (by simp; omega)]
      simp only [pushed_mem, pushed_reg, if_true, Memory.read_write, e1, e2, frameByte]
      rw [if_neg (by simp; omega), if_pos (by simp; omega)]
    by_cases h7 : k = 7
    · subst h7
      rw [t5 _ (by simp; omega)]
      simp only [pushed_mem, pushed_reg, if_true, Memory.read_write, e1, e2, frameByte]
      rw [if_pos (by simp; omega)]
    have hk6 : k.val ≤ 6 := by omega
    have key := t4 (6 - k.val) (by omega) (by omega)
    rw [show (s.reg 7).toNat - 2 - 1 - (6 - k.val) = k.val + (s.reg 7).toNat - 9 by omega] at key
    have hne : (⟨6 - k.val, by omega⟩ : Fin 8) ≠ 7 := fun h => by simp [Fin.ext_iff] at h; omega
    rw [key, savedRegs_getElem _ (by omega), frameByte_reg s k hk6]
    simp [hne]
  · intro a ha
    rw [t5 a (by omega)]
    simp only [pushed_mem, pushed_reg, if_true, Memory.read_write, e1, e2]
    rw [if_neg (by omega), if_neg (by omega)]
  · intro r hr
    rw [t6 r hr]
    simp [hr]

/-- Clearing a pending bit leaves every other bit (R220). -/
theorem clearPending_bits (i : Fin 8) (s : State) (j : Fin 8) :
    ((clearPending i s).reg 6).getLsbD j = ((s.reg 6).getLsbD j && decide (j ≠ i)) := by
  have h : ∀ i j : Fin 8, (lineBit i).getLsbD j = decide (j = i) := by decide
  have hj := j.isLt
  simp only [clearPending, IS_eq, State.reg_setReg, if_true, BitVec.getLsbD_and, BitVec.getLsbD_not, hj, decide_true,
    Bool.true_and, h, ne_eq, decide_not]

theorem clearPending_reg (i : Fin 8) (s : State) {r : Fin 8} (h : r ≠ 6) : (clearPending i s).reg r = s.reg r := by
  simp [clearPending, h]

@[simp] theorem clearPending_pc (i : Fin 8) (s : State) : (clearPending i s).pc = s.pc := rfl
@[simp] theorem clearPending_fl (i : Fin 8) (s : State) : (clearPending i s).fl = s.fl := rfl
@[simp] theorem clearPending_mem (i : Fin 8) (s : State) : (clearPending i s).mem = s.mem := rfl
@[simp] theorem clearPending_status (i : Fin 8) (s : State) : (clearPending i s).status = s.status := rfl
@[simp] theorem clearPending_console (i : Fin 8) (s : State) : (clearPending i s).console = s.console := rfl
@[simp] theorem clearPending_env (i : Fin 8) (s : State) : (clearPending i s).env = s.env := rfl

/-- The vector slot of every line lies inside memory in a legal configuration (R6, R224). -/
theorem vector_inside {c : Config} (h : c.Legal) (i : Fin 8) : c.vecBase.toNat + i.val < memSize := by
  have h1 := h.vectorsInMemory
  have h2 := i.isLt
  unfold memSize
  omega

end Sys2Proof.Machine
end

