-- ==== Sys2Proof/Laws/Exec.lean ====
section
/-! SUPPORT. The inversion lemma of `exec`: every way an instruction can end, said once. Whole-machine proofs do a case
analysis on `ExecResult` and do not unfold the meanings again. `IRET` has its own, `iret_cases`. -/

namespace Sys2Proof.Machine

/-- What holds when an instruction raises a fault (the cause table, 60_exceptions.md R200). -/
def FaultCause (f : Fault) (i : Instr) (s : State) : Prop :=
  match f with
  | .unsupportedInstruction _ => False
  | .unsupportedOperation _ => False
  | .divisionByZero p => p = s.pc ∧ ∃ a q, i = .div a (regOp q) ∧ s.reg q = 0#8
  | .outOfRange (.mem _) => False
  | .outOfRange (.reg a) => 8 ≤ a.toNat ∧ a ∈ i.regOperands
  | .outOfRange .stackPush => s.reg 7 = 0#8 ∧ ∃ a, i = .push a ∨ i = .call a
  | .outOfRange .stackPop => s.env.config.spInit.toNat ≤ (s.reg 7).toNat ∧ (i = .ret ∨ ∃ a, i = .pop a)

/-- Every way an instruction other than `IRET` can end. -/
inductive ExecResult (i : Instr) (s t : State) : Prop
  /-- It raised a fault, having changed nothing. -/
  | faulted (f : Fault) (ht : t = takeFault f s) (hc : FaultCause f i s)
  /-- It wrote its destination register. -/
  | wroteReg (r : Fin 8) (v : Byte) (ht : t = s.setReg r v) (hd : regOp r ∈ i.destinations) (hp : i.mnemonic ∉ pcSetters)
  /-- It wrote the flags. -/
  | wroteFlags (v : FlagBits) (hi : ∃ a b, i = .cmp a b) (ht : t = setFl v s)
  /-- It stored a byte. -/
  | stored (r q : Fin 8) (hi : i = .st (regOp r) (regOp q)) (ht : t = s.setMem (s.mem.write (s.reg r).toNat (s.reg q)))
  /-- It emitted an event. -/
  | emitted (e : Event) (hi : ∃ a, i = .prn a ∨ i = .pra a) (ht : t = emit e s)
  /-- It pushed a register. -/
  | didPush (r : Fin 8) (hi : i = .push (regOp r)) (h0 : s.reg 7 ≠ 0#8)
      (ht : t = pushed (if r = 7 then s.reg 7 - 1#8 else s.reg r) s)
  /-- It popped into a register. -/
  | didPop (r : Fin 8) (hi : i = .pop (regOp r)) (h0 : (s.reg 7).toNat < s.env.config.spInit.toNat)
      (ht : t = stackUp (s.setReg r (s.mem.read (s.reg 7).toNat)))
  /-- It called. -/
  | called (r : Fin 8) (hi : i = .call (regOp r)) (h0 : s.reg 7 ≠ 0#8)
      (ht : t = setPc (if r = 7 then s.reg 7 - 1#8 else s.reg r) (pushed (s.pc + 2#8) s))
  /-- It returned. -/
  | returned (hi : i = .ret) (h0 : (s.reg 7).toNat < s.env.config.spInit.toNat)
      (ht : t = setPc (s.mem.read (s.reg 7).toNat) (stackUp s))
  /-- It jumped. -/
  | jumped (r : Fin 8)
      (hi : i = .jmp (regOp r) ∨ (i = .jeq (regOp r) ∧ flagE s.fl = true) ∨ (i = .jne (regOp r) ∧ flagE s.fl = false))
      (ht : t = setPc (s.reg r) s)
  /-- It did not jump. -/
  | skipped (a : Byte) (hi : (i = .jeq a ∧ flagE s.fl = false) ∨ (i = .jne a ∧ flagE s.fl = true))
      (ht : t = setPc (s.pc + 2#8) s)
  /-- It halted the machine. -/
  | halted (hi : i = .hlt) (ht : t = halt s)

theorem ExecResult.badReg {i : Instr} {s t : State} {a : Byte} (ha : 8 ≤ a.toNat) (hm : a ∈ i.regOperands)
    (ht : takeFault (.outOfRange (.reg a)) s = t) : ExecResult i s t :=
  .faulted (.outOfRange (.reg a)) ht.symm ⟨ha, hm⟩

theorem ExecResult.ofTwoRegs {i : Instr} {f : Byte → Byte → Byte} {a b : Byte} {s t : State}
    (h : (onTwoRegs f a b s).outcome = .next t) (hr : i.regOperands = [a, b]) (hd : i.destinations = [a])
    (hp : i.mnemonic ∉ pcSetters) : ExecResult i s t := by
  rcases operand_cases a with ⟨r, rfl⟩ | ha
  · rcases operand_cases b with ⟨q, rfl⟩ | hb
    · rw [onTwoRegs_ok] at h
      exact .wroteReg r _ (by simpa using h.symm) (by simp [hd]) hp
    · rw [onTwoRegs_highB hb] at h
      exact .badReg hb (by simp [hr]) (by simpa using h)
  · rw [onTwoRegs_highA ha] at h
    exact .badReg ha (by simp [hr]) (by simpa using h)

theorem ExecResult.ofOneReg {i : Instr} {f : Byte → Byte} {a : Byte} {s t : State}
    (h : (onOneReg f a s).outcome = .next t) (hr : i.regOperands = [a]) (hd : i.destinations = [a])
    (hp : i.mnemonic ∉ pcSetters) : ExecResult i s t := by
  rcases operand_cases a with ⟨r, rfl⟩ | ha
  · rw [onOneReg_ok] at h
    exact .wroteReg r _ (by simpa using h.symm) (by simp [hd]) hp
  · rw [onOneReg_high ha] at h
    exact .badReg ha (by simp [hr]) (by simpa using h)

theorem ExecResult.ofRegAndCount {i : Instr} {f : Byte → Nat → Byte} {a n : Byte} {s t : State}
    (h : (onRegAndCount f a n s).outcome = .next t) (hr : i.regOperands = [a]) (hd : i.destinations = [a])
    (hp : i.mnemonic ∉ pcSetters) : ExecResult i s t := by
  rcases operand_cases a with ⟨r, rfl⟩ | ha
  · rw [onRegAndCount_ok] at h
    exact .wroteReg r _ (by simpa using h.symm) (by simp [hd]) hp
  · rw [onRegAndCount_high ha] at h
    exact .badReg ha (by simp [hr]) (by simpa using h)

theorem ExecResult.ofJump {i : Instr} {a : Byte} {s t : State} (h : (jumpTo a s).outcome = .next t)
    (hr : i.regOperands = [a])
    (hi : i = .jmp a ∨ (i = .jeq a ∧ flagE s.fl = true) ∨ (i = .jne a ∧ flagE s.fl = false)) : ExecResult i s t := by
  rcases operand_cases a with ⟨r, rfl⟩ | ha
  · rw [jumpTo_ok] at h
    exact .jumped r hi (by simpa using h.symm)
  · rw [jumpTo_high ha] at h
    exact .badReg ha (by simp [hr]) (by simpa using h)

/-- Every instruction but `IRET` ends in one of the ways `ExecResult` lists. -/
theorem exec_cases {i : Instr} {s t : State} (hi : i ≠ .iret) (h : exec i s = .next t) : ExecResult i s t := by
  cases i with
  | add a b => exact .ofTwoRegs h rfl rfl (by simp [Instr.mnemonic, pcSetters])
  | sub a b => exact .ofTwoRegs h rfl rfl (by simp [Instr.mnemonic, pcSetters])
  | mul a b => exact .ofTwoRegs h rfl rfl (by simp [Instr.mnemonic, pcSetters])
  | and a b => exact .ofTwoRegs h rfl rfl (by simp [Instr.mnemonic, pcSetters])
  | or a b => exact .ofTwoRegs h rfl rfl (by simp [Instr.mnemonic, pcSetters])
  | xor a b => exact .ofTwoRegs h rfl rfl (by simp [Instr.mnemonic, pcSetters])
  | inc a => exact .ofOneReg h rfl rfl (by simp [Instr.mnemonic, pcSetters])
  | dec a => exact .ofOneReg h rfl rfl (by simp [Instr.mnemonic, pcSetters])
  | not a => exact .ofOneReg h rfl rfl (by simp [Instr.mnemonic, pcSetters])
  | shl a n => exact .ofRegAndCount h rfl rfl (by simp [Instr.mnemonic, pcSetters])
  | shr a n => exact .ofRegAndCount h rfl rfl (by simp [Instr.mnemonic, pcSetters])
  | div a b =>
    simp only [exec, execDiv] at h
    rcases operand_cases a with ⟨r, rfl⟩ | ha
    · rcases operand_cases b with ⟨q, rfl⟩ | hb
      · by_cases h0 : s.reg q = 0#8
        · simp [h0] at h
          exact .faulted (.divisionByZero s.pc) h.symm ⟨rfl, _, _, rfl, h0⟩
        · simp [h0] at h
          exact .wroteReg r _ h.symm (by simp [Instr.destinations]) (by simp [Instr.mnemonic, pcSetters])
      · simp [readReg_high hb] at h
        exact .badReg hb (by simp [Instr.regOperands]) h
    · simp [readReg_high ha] at h
      exact .badReg ha (by simp [Instr.regOperands]) h
  | cmp a b =>
    simp only [exec, execCmp] at h
    rcases operand_cases a with ⟨r, rfl⟩ | ha
    · rcases operand_cases b with ⟨q, rfl⟩ | hb
      · simp at h; exact .wroteFlags _ ⟨_, _, rfl⟩ h.symm
      · simp [readReg_high hb] at h
        exact .badReg hb (by simp [Instr.regOperands]) h
    · simp [readReg_high ha] at h
      exact .badReg ha (by simp [Instr.regOperands]) h
  | hlt =>
    simp [exec, execHlt] at h
    exact .halted rfl h.symm
  | iret => exact absurd rfl hi
  | ret =>
    simp only [exec, execRet] at h
    by_cases h0 : (s.reg 7).toNat < s.env.config.spInit.toNat
    · simp [pop_ok h0] at h
      exact .returned rfl h0 h.symm
    · simp [pop_empty (Nat.not_lt.1 h0)] at h
      exact .faulted (.outOfRange .stackPop) h.symm ⟨Nat.not_lt.1 h0, .inl rfl⟩
  | push a =>
    simp only [exec, execPush] at h
    rcases operand_cases a with ⟨r, rfl⟩ | ha
    · by_cases h0 : s.reg 7 = 0#8
      · simp [stackDown, h0] at h
        exact .faulted (.outOfRange .stackPush) h.symm ⟨h0, _, .inl rfl⟩
      · simp [stackDown, h0] at h
        exact .didPush r rfl h0 h.symm
    · simp [checkReg_high ha] at h
      exact .badReg ha (by simp [Instr.regOperands]) h
  | pop a =>
    simp only [exec, execPop] at h
    rcases operand_cases a with ⟨r, rfl⟩ | ha
    · by_cases h0 : (s.reg 7).toNat < s.env.config.spInit.toNat
      · simp [stackTop_ok h0] at h
        exact .didPop r rfl h0 h.symm
      · simp [stackTop_empty (Nat.not_lt.1 h0)] at h
        exact .faulted (.outOfRange .stackPop) h.symm ⟨Nat.not_lt.1 h0, .inr ⟨_, rfl⟩⟩
    · simp [checkReg_high ha] at h
      exact .badReg ha (by simp [Instr.regOperands]) h
  | prn a =>
    simp only [exec, execPrn] at h
    rcases operand_cases a with ⟨r, rfl⟩ | ha
    · simp at h; exact .emitted _ ⟨_, .inl rfl⟩ h.symm
    · simp [readReg_high ha] at h
      exact .badReg ha (by simp [Instr.regOperands]) h
  | pra a =>
    simp only [exec, execPra] at h
    rcases operand_cases a with ⟨r, rfl⟩ | ha
    · simp at h; exact .emitted _ ⟨_, .inr rfl⟩ h.symm
    · simp [readReg_high ha] at h
      exact .badReg ha (by simp [Instr.regOperands]) h
  | call a =>
    simp only [exec, execCall] at h
    rcases operand_cases a with ⟨r, rfl⟩ | ha
    · by_cases h0 : s.reg 7 = 0#8
      · simp [push_full h0] at h
        exact .faulted (.outOfRange .stackPush) h.symm ⟨h0, _, .inr rfl⟩
      · simp [push_ok h0] at h
        exact .called r rfl h0 h.symm
    · simp [checkReg_high ha] at h
      exact .badReg ha (by simp [Instr.regOperands]) h
  | jmp a => exact .ofJump h rfl (.inl rfl)
  | jeq a =>
    simp only [exec, execJeq] at h
    cases hf : flagE s.fl with
    | true =>
      rw [hf] at h
      exact .ofJump h rfl (.inr (.inl ⟨rfl, hf⟩))
    | false =>
      rw [hf] at h
      exact .skipped a (.inl ⟨rfl, hf⟩) (by simpa [skipTwo] using h.symm)
  | jne a =>
    simp only [exec, execJne] at h
    cases hf : flagE s.fl with
    | false =>
      rw [hf] at h
      exact .ofJump h rfl (.inr (.inr ⟨rfl, hf⟩))
    | true =>
      rw [hf] at h
      exact .skipped a (.inr ⟨rfl, hf⟩) (by simpa [skipTwo] using h.symm)
  | ldi a v =>
    simp only [exec, execLdi] at h
    rcases operand_cases a with ⟨r, rfl⟩ | ha
    · simp at h; exact .wroteReg r _ h.symm (by simp [Instr.destinations]) (by simp [Instr.mnemonic, pcSetters])
    · simp [writeReg_high ha] at h
      exact .badReg ha (by simp [Instr.regOperands]) h
  | ld a b =>
    simp only [exec, execLd] at h
    rcases operand_cases b with ⟨q, rfl⟩ | hb
    · rcases operand_cases a with ⟨r, rfl⟩ | ha
      · simp [loadThrough_ok] at h
        exact .wroteReg r _ h.symm (by simp [Instr.destinations]) (by simp [Instr.mnemonic, pcSetters])
      · simp [loadThrough_ok, writeReg_high ha] at h
        exact .badReg ha (by simp [Instr.regOperands]) h
    · simp [loadThrough_high hb] at h
      exact .badReg hb (by simp [Instr.regOperands]) h
  | st a b =>
    simp only [exec, execSt] at h
    rcases operand_cases a with ⟨r, rfl⟩ | ha
    · rcases operand_cases b with ⟨q, rfl⟩ | hb
      · simp at h; exact .stored r q rfl h.symm
      · simp [readReg_high hb] at h
        exact .badReg hb (by simp [Instr.regOperands]) h
    · simp [readReg_high ha] at h
      exact .badReg ha (by simp [Instr.regOperands]) h

/-- Every way an `IRET` can end: it popped nine bytes, or it met `SP_INIT` first. -/
theorem iret_cases {s t : State} (h : exec .iret s = .next t) :
    t.mem = s.mem ∧ t.console = s.console ∧ t.env = s.env ∧
      ((t.status = s.status ∧ (s.reg 7).toNat + 9 ≤ s.env.config.spInit.toNat ∧
          t.pc = s.mem.read ((s.reg 7).toNat + 8)) ∨
        (t.status = .faulted (.outOfRange .stackPop) ∧ s.env.config.spInit.toNat ≤ (t.reg 7).toNat ∧ t.pc = s.pc)) := by
  obtain ⟨u, u1, u2, u3, u4, u5, u6, u7, u8, u9, u10, u11⟩ :=
    popRegs_spec s.env.config [6, 5, 4, 3, 2, 1, 0] s (by decide) (by decide)
  simp only [List.length_cons, List.length_nil] at u1 u2 u3
  simp only [exec, execIret] at h
  by_cases c1 : (s.reg 7).toNat + 7 ≤ s.env.config.spInit.toNat
  · rw [u1 (.inr (by omega))] at h
    by_cases c2 : (u.reg 7).toNat < s.env.config.spInit.toNat
    · have e8 := stackUp_toNat c2
      simp only [Res.bind_ok, pop_ok c2] at h
      by_cases c3 : ((setFl (flagsOfByte (u.mem.read (u.reg 7).toNat)) (stackUp u)).reg 7).toNat < s.env.config.spInit.toNat
      · simp only [pop_ok c3, Res.bind_ok, Res.outcome_ok, Host.Outcome.next.injEq] at h
        subst h
        rw [setFl_reg] at c3
        exact ⟨u6, u10, u11, .inl ⟨u9, by omega, by
          simp only [setPc_pc, setFl_mem, stackUp_mem, setFl_reg, u6]
          congr 1
          omega⟩⟩
      · simp only [pop_empty (Nat.not_lt.mp c3), Res.bind_raised, Res.outcome_raised, Host.Outcome.next.injEq] at h
        subst h
        exact ⟨u6, u10, u11, .inr ⟨rfl, Nat.not_lt.mp c3, u8⟩⟩
    · simp only [Res.bind_ok, pop_empty (Nat.not_lt.mp c2), Res.bind_raised, Res.outcome_raised,
        Host.Outcome.next.injEq] at h
      subst h
      exact ⟨u6, u10, u11, .inr ⟨rfl, Nat.not_lt.mp c2, u8⟩⟩
  · rw [u2 (by omega) (by omega)] at h
    simp only [Res.bind_raised, Res.outcome_raised, Host.Outcome.next.injEq] at h
    subst h
    exact ⟨u6, u10, u11, .inr ⟨rfl, by rw [takeFault_reg]; omega, u8⟩⟩

/-- `exec` always answers a next state: a fault is a state, and no arm refuses (R122, R205). -/
theorem exec_is_next (i : Instr) (s : State) : ∃ t, exec i s = .next t := by
  cases i <;> first | exact Res.outcome_is_next _ | exact ⟨_, rfl⟩

end Sys2Proof.Machine
end

