-- ==== Sys2Proof/Laws/Cycle.lean ====
section
/-! SUPPORT. What a cycle can do, said once: the fetch, what the interrupt controller leaves, the ways the front end can
end, and the ways a step can end. Claims about steps do a case analysis on these. -/

namespace Sys2Proof.Machine

/-! ## Pushes, as the interrupt controller uses them -/

/-- What holds of a part of interrupt entry that only pushes (R170, R221). -/
structure PushesOnly (s : State) (r : Res Unit) : Prop where
  fl : r.state.fl = s.fl
  pc : r.state.pc = s.pc
  run : KeepsRun s r.state
  wf : s.mem.wf = true → r.state.mem.wf = true
  fault : ∀ f t, r = .raised f t → f = .outOfRange .stackPush ∧ t.reg 7 = 0#8

theorem PushesOnly.done (s : State) : PushesOnly s (.ok () s) :=
  ⟨rfl, rfl, ⟨rfl, rfl, rfl⟩, id, fun _ _ h => by cases h⟩

theorem PushesOnly.bind {s : State} {r : Res Unit} {k : Unit → State → Res Unit} (h : PushesOnly s r)
    (hk : ∀ u, PushesOnly u (k () u)) : PushesOnly s (r.bind k) := by
  cases r with
  | raised f t => exact h
  | ok v u =>
    have g := hk u
    obtain ⟨g1, g2, g3⟩ := g.run
    obtain ⟨h1, h2, h3⟩ := h.run
    exact ⟨g.fl.trans h.fl, g.pc.trans h.pc, ⟨g1.trans h1, g2.trans h2, g3.trans h3⟩, fun w => g.wf (h.wf w), g.fault⟩

theorem push_pushesOnly (v : Byte) (s : State) : PushesOnly s (push v s) := by
  by_cases h0 : s.reg 7 = 0#8
  · rw [push_full h0]
    refine ⟨rfl, rfl, ⟨rfl, rfl, rfl⟩, id, fun f t h => ?_⟩
    cases h
    exact ⟨rfl, h0⟩
  · rw [push_ok h0]
    exact ⟨rfl, rfl, ⟨rfl, rfl, rfl⟩, fun w => Memory.wf_write v w (byte_lt_memSize _), fun _ _ h => by cases h⟩

theorem pushRegs_pushesOnly (rs : List (Fin 8)) (s : State) : PushesOnly s (pushRegs rs s) := by
  induction rs generalizing s with
  | nil => exact .done s
  | cons r rs ih => exact (push_pushesOnly _ s).bind ih

theorem pushContext_pushesOnly (s : State) : PushesOnly s (pushContext s) :=
  (push_pushesOnly _ s).bind fun u => (push_pushesOnly _ u).bind fun w => pushRegs_pushesOnly _ w

/-! ## The interrupt controller -/

/-- What step 1 of a cycle leaves alone, and, of a legal configuration, the one fault it can raise (R210, R224). -/
structure PollFrame (c : Config) (s : State) (r : Res Unit) : Prop where
  fl : r.state.fl = s.fl
  status : r.state.status = s.status
  console : r.state.console = s.console
  env : r.state.env = s.env
  wf : s.mem.wf = true → r.state.mem.wf = true
  pcAtFault : ∀ f t, r = .raised f t → t.pc = s.pc
  fault : c.Legal → ∀ f t, r = .raised f t → f = .outOfRange .stackPush ∧ t.reg 7 = 0#8

theorem enter_frame (c : Config) (i : Fin 8) (s : State) : PollFrame c s (enter c i s) := by
  have h := pushContext_pushesOnly (clearPending i s)
  unfold enter
  cases hp : pushContext (clearPending i s) with
  | raised f t =>
    rw [hp] at h
    obtain ⟨h1, h2, h3⟩ := h.run
    refine ⟨h.fl, h1, h2, h3, h.wf, fun g u hu => ?_, fun _ g u hu => ?_⟩ <;>
      simp only [Res.bind_raised] at hu <;> cases hu
    · exact h.pc
    · exact h.fault f t rfl
  | ok _ t =>
    rw [hp] at h
    obtain ⟨h1, h2, h3⟩ := h.run
    rw [Res.bind_ok]
    by_cases hv : c.vecBase.toNat + i.val < memSize
    · rw [memRead_inside hv, Res.bind_ok]
      exact ⟨h.fl, h1, h2, h3, h.wf, fun _ _ hu => (by cases hu), fun _ _ _ hu => (by cases hu)⟩
    · rw [memRead_outside (Nat.not_lt.mp hv), Res.bind_raised]
      refine ⟨h.fl, h1, h2, h3, h.wf, fun g u hu => ?_, fun hc => absurd (vector_inside hc i) hv⟩
      cases hu
      exact h.pc

theorem service_frame (c : Config) (s : State) : PollFrame c s (service c s) := by
  unfold service
  split
  · exact ⟨rfl, rfl, rfl, rfl, id, fun _ _ h => (by cases h), fun _ _ _ h => (by cases h)⟩
  · exact enter_frame c _ s

@[simp] theorem latchTimer_mem (tick : Bool) (s : State) : (latchTimer tick s).mem = s.mem := by
  cases tick <;> rfl

/-- Latching the inputs of a cycle never faults, and writes only the pending register and the keyboard cell
(R211, R212). -/
theorem latch_ok (c : Config) (inp : Input) (s : State) :
    ∃ u, latchKey c inp.key (latchTimer inp.tick s) = .ok () u ∧ u.fl = s.fl ∧ u.status = s.status ∧
      u.console = s.console ∧ u.env = s.env ∧ u.pc = s.pc ∧ (s.mem.wf = true → u.mem.wf = true) := by
  obtain ⟨tick, key⟩ := inp
  cases key with
  | none => exact ⟨_, rfl, by cases tick <;> exact ⟨rfl, rfl, rfl, rfl, rfl, id⟩⟩
  | some k =>
    refine ⟨_, memWrite_byte _ _ _, ?_⟩
    cases tick <;> exact ⟨rfl, rfl, rfl, rfl, rfl, fun w => Memory.wf_write k w (byte_lt_memSize _)⟩

/-- Step 1 of a cycle with given inputs (R110, R210). -/
theorem controller_frame (c : Config) (inp : Input) (s : State) : PollFrame c s (interruptController c inp s) := by
  obtain ⟨u, hu, h1, h2, h3, h4, h5, h6⟩ := latch_ok c inp s
  have g := service_frame c u
  unfold interruptController
  rw [hu, Res.bind_ok]
  exact ⟨g.fl.trans h1, g.status.trans h2, g.console.trans h3, g.env.trans h4, fun w => g.wf (h6 w),
    fun f t h => (g.pcAtFault f t h).trans h5, g.fault⟩

/-- Step 1 of the cycle that begins in a state. -/
theorem poll_frame (s : State) : PollFrame s.env.config (sampled s) (pollInterrupts s) := controller_frame _ _ _

/-- Step 1 does not change the configuration. -/
theorem poll_config {s u : State} (h : pollInterrupts s = .ok () u) : u.env.config = s.env.config := by
  have := (poll_frame s).env
  rw [h] at this
  exact (congrArg Env.config this).trans (sampled_config s)

/-! ## Fetch -/

/-- A fetch from 253 or below reads the three bytes and changes nothing (R112). -/
theorem fetch_ok {t : State} (h : t.pc.toNat ≤ 253) :
    fetch t = .ok ⟨t.mem.read t.pc.toNat, t.mem.read (t.pc.toNat + 1), t.mem.read (t.pc.toNat + 2)⟩ t := by
  simp only [fetch, memRead_byte, Res.bind_ok]
  rw [memRead_inside (by simp [memSize]; omega)]
  simp only [Res.bind_ok]
  rw [memRead_inside (by simp [memSize]; omega)]
  rfl

/-- A fetch from 254 or 255 meets address 256 (R112; the spec's decision D10, log entry 17). -/
theorem fetch_top {t : State} (h : 254 ≤ t.pc.toNat) : fetch t = .raised (.outOfRange (.mem 256)) t := by
  have := t.pc.isLt
  simp only [fetch, memRead_byte, Res.bind_ok]
  by_cases h5 : t.pc.toNat = 255
  · rw [memRead_outside (by simp [memSize, h5]), h5]
    rfl
  · rw [memRead_inside (by simp [memSize]; omega)]
    simp only [Res.bind_ok]
    rw [memRead_outside (by simp [memSize]; omega), show t.pc.toNat = 254 by omega]
    rfl

/-! ## Front end and step -/

/-- The instruction a state's `PC` points at. -/
def decodeAt (u : State) : Except DecodeError Instr :=
  decode u.env.config.opc (u.mem.read u.pc.toNat) (u.mem.read (u.pc.toNat + 1)) (u.mem.read (u.pc.toNat + 2))

/-- Every way the front end of a cycle can end; `u` is the state it leaves. -/
inductive FrontEnd (s u : State) : Res (Byte × Instr) → Prop
  /-- Interrupt entry faulted. -/
  | entryFault (f : Fault) (hp : pollInterrupts s = .raised f u) : FrontEnd s u (.raised f u)
  /-- The operand fetch met the top of memory. -/
  | fetchFault (hp : pollInterrupts s = .ok () u) (hpc : 254 ≤ u.pc.toNat) :
      FrontEnd s u (.raised (.outOfRange (.mem 256)) u)
  /-- The opcode is illegal. -/
  | decodeError (e : DecodeError) (hp : pollInterrupts s = .ok () u) (hpc : u.pc.toNat ≤ 253)
      (hd : decodeAt u = .error e) : FrontEnd s u (.raised (decodeFault e) u)
  /-- An instruction is ready. -/
  | ready (i : Instr) (hp : pollInterrupts s = .ok () u) (hpc : u.pc.toNat ≤ 253)
      (hd : decodeAt u = .ok i) : FrontEnd s u (.ok (u.mem.read u.pc.toNat, i) u)

/-- The front end after step 1. -/
theorem frontEnd_eq (s : State) : frontEnd s = (pollInterrupts s).bind fun _ u =>
    (fetch u).bind fun t u => (decodeFetched s.env.config t u).bind fun i u => .ok (t.op, i) u := rfl

theorem frontEnd_cases (s : State) : ∃ u, FrontEnd s u (frontEnd s) := by
  rw [frontEnd_eq]
  cases hp : pollInterrupts s with
  | raised f u => exact ⟨u, .entryFault f hp⟩
  | ok _ u =>
    refine ⟨u, ?_⟩
    rw [Res.bind_ok]
    by_cases hpc : u.pc.toNat ≤ 253
    · rw [fetch_ok hpc, Res.bind_ok]
      cases hd : decodeAt u with
      | error e =>
        have h := hd
        unfold decodeAt at h
        rw [poll_config hp] at h
        simp only [decodeFetched, h]
        exact .decodeError e hp hpc hd
      | ok i =>
        have h := hd
        unfold decodeAt at h
        rw [poll_config hp] at h
        simp only [decodeFetched, h]
        exact .ready i hp hpc hd
    · rw [fetch_top (by omega)]
      exact .fetchFault hp (by omega)

theorem step_running {s : State} (h : s.status = .running) : step s = cycle (currentInput s) (sampled s) := by
  simp [step, stepRunning, h]

/-- A running machine's step from its front end (R110). -/
theorem step_of_frontEnd {s : State} (h : s.status = .running) : step s =
    match frontEnd s with
    | .ok (op, i) u => afterExec op (exec i u)
    | .raised f u => .next (takeFault f u) := by
  rw [step_running h]
  rfl

theorem step_stopped {s : State} (h : s.status ≠ .running) : step s = .next s := by
  unfold step stepRunning
  split <;> simp_all

/-- Every way a step can end (R110, R122). -/
inductive StepResult (s t : State) : Prop
  /-- The machine had stopped. -/
  | stopped (hs : s.status ≠ .running) (ht : t = s)
  /-- The cycle faulted before its instruction. -/
  | faulted (hs : s.status = .running) (f : Fault) (u : State) (hf : frontEnd s = .raised f u)
      (ht : t = takeFault f u)
  /-- An instruction ran from the state `u` and left `v`. -/
  | ran (hs : s.status = .running) (op : Byte) (i : Instr) (u v : State) (hf : frontEnd s = .ok (op, i) u)
      (he : exec i u = .next v) (ht : t = advance op v)

theorem step_cases {s t : State} (h : step s = .next t) : StepResult s t := by
  by_cases hs : s.status = .running
  · rw [step_of_frontEnd hs] at h
    cases hf : frontEnd s with
    | ok p u =>
      obtain ⟨op, i⟩ := p
      obtain ⟨v, hv⟩ := exec_is_next i u
      rw [hf] at h
      simp only [hv, afterExec] at h
      exact .ran hs op i u v hf hv (by simpa using h.symm)
    | raised f u =>
      rw [hf] at h
      exact .faulted hs f u hf (by simpa using h.symm)
  · rw [step_stopped hs] at h
    exact .stopped hs (by simpa using h.symm)

/-- The state in which the instruction of a cycle runs: step 1 has kept `FL`, status and console and taken one input, and
the instruction is the one at its `PC`. -/
theorem frontEnd_ok {s u : State} {op : Byte} {i : Instr} (h : frontEnd s = .ok (op, i) u) :
    pollInterrupts s = .ok () u ∧ u.pc.toNat ≤ 253 ∧ op = u.mem.read u.pc.toNat ∧ decodeAt u = .ok i := by
  obtain ⟨w, hw⟩ := frontEnd_cases s
  rw [h] at hw
  cases hw with
  | ready _ hp hpc hd => exact ⟨hp, hpc, rfl, hd⟩

/-- Laying bytes in memory keeps the canonical form. -/
theorem storeBytes_wf (vs : List Byte) {a : Nat} {m : Memory} (h : m.wf = true) : (storeBytes a vs m).wf = true := by
  induction vs generalizing a m with
  | nil => exact h
  | cons v vs ih =>
    unfold storeBytes
    split
    · next ha => exact ih (Memory.wf_write v h ha)
    · exact ih h

@[simp] theorem listInput_mem (s : State) : (listInput s).mem = s.mem := by
  unfold listInput
  split <;> rfl

/-- `withFetchWord` keeps the canonical form. -/
theorem withFetchWord_wf {s : State} (nbits w : Nat) (h : s.mem.wf = true) : (s.withFetchWord nbits w).mem.wf = true :=
  storeBytes_wf _ (by rwa [listInput_mem])

/-- `advance` writes `PC` only. -/
theorem advance_keeps (op : Byte) (s : State) :
    (∀ r, (advance op s).reg r = s.reg r) ∧ (advance op s).fl = s.fl ∧ (advance op s).mem = s.mem ∧ KeepsRun s (advance op s) := by
  unfold advance
  split
  · exact ⟨fun _ => rfl, rfl, rfl, rfl, rfl, rfl⟩
  · exact ⟨fun _ => rfl, rfl, rfl, rfl, rfl, rfl⟩

end Sys2Proof.Machine
end

