-- ==== Sys2Proof/Laws/PerInstr.lean ====
section
/-! SUPPORT. Laws said of every instruction, one lemma per constructor. Family `EncodeLength`: under every legal opcode
assignment an instruction is as long as bits 7:6 of its opcode say, with its operand bytes after the opcode (30_encoding.md
R80, R81, R90). -/

namespace Sys2Proof.Laws.EncodeLength

/-- The encoding has the length its first byte announces, at most 3, and holds the register operands. -/
def Statement (i : Instr) : Prop :=
  ∀ opc, OpcLegal opc →
    (encode opc i).length = 1 + opNops (opc i.mnemonic) ∧ (encode opc i).length ≤ 3 ∧
      ∀ r ∈ i.regOperands, r ∈ (encode opc i).tail

/-- The three facts from the shape of the constructor. -/
theorem of_shape {i : Instr} (h : i.operandBytes.length = i.mnemonic.operands) (h3 : i.operandBytes.length ≤ 2)
    (hr : ∀ r ∈ i.regOperands, r ∈ i.operandBytes) : Statement i := by
  intro opc ho
  refine ⟨?_, ?_, hr⟩
  · rw [ho.operands, ← h, encode, List.length_cons, Nat.add_comm]
  · rw [encode, List.length_cons]
    omega

theorem add (a b : Byte) : Statement (Instr.add a b) :=
  of_shape rfl (by simp [Instr.operandBytes]) (by simp [Instr.regOperands, Instr.operandBytes])

theorem sub (a b : Byte) : Statement (Instr.sub a b) :=
  of_shape rfl (by simp [Instr.operandBytes]) (by simp [Instr.regOperands, Instr.operandBytes])

theorem mul (a b : Byte) : Statement (Instr.mul a b) :=
  of_shape rfl (by simp [Instr.operandBytes]) (by simp [Instr.regOperands, Instr.operandBytes])

theorem div (a b : Byte) : Statement (Instr.div a b) :=
  of_shape rfl (by simp [Instr.operandBytes]) (by simp [Instr.regOperands, Instr.operandBytes])

theorem inc (a : Byte) : Statement (Instr.inc a) :=
  of_shape rfl (by simp [Instr.operandBytes]) (by simp [Instr.regOperands, Instr.operandBytes])

theorem dec (a : Byte) : Statement (Instr.dec a) :=
  of_shape rfl (by simp [Instr.operandBytes]) (by simp [Instr.regOperands, Instr.operandBytes])

theorem cmp (a b : Byte) : Statement (Instr.cmp a b) :=
  of_shape rfl (by simp [Instr.operandBytes]) (by simp [Instr.regOperands, Instr.operandBytes])

theorem and (a b : Byte) : Statement (Instr.and a b) :=
  of_shape rfl (by simp [Instr.operandBytes]) (by simp [Instr.regOperands, Instr.operandBytes])

theorem not (a : Byte) : Statement (Instr.not a) :=
  of_shape rfl (by simp [Instr.operandBytes]) (by simp [Instr.regOperands, Instr.operandBytes])

theorem or (a b : Byte) : Statement (Instr.or a b) :=
  of_shape rfl (by simp [Instr.operandBytes]) (by simp [Instr.regOperands, Instr.operandBytes])

theorem xor (a b : Byte) : Statement (Instr.xor a b) :=
  of_shape rfl (by simp [Instr.operandBytes]) (by simp [Instr.regOperands, Instr.operandBytes])

theorem shl (a n : Byte) : Statement (Instr.shl a n) :=
  of_shape rfl (by simp [Instr.operandBytes]) (by simp [Instr.regOperands, Instr.operandBytes])

theorem shr (a n : Byte) : Statement (Instr.shr a n) :=
  of_shape rfl (by simp [Instr.operandBytes]) (by simp [Instr.regOperands, Instr.operandBytes])

theorem hlt : Statement (Instr.hlt) :=
  of_shape rfl (by simp [Instr.operandBytes]) (by simp [Instr.regOperands, Instr.operandBytes])

theorem ret : Statement (Instr.ret) :=
  of_shape rfl (by simp [Instr.operandBytes]) (by simp [Instr.regOperands, Instr.operandBytes])

theorem iret : Statement (Instr.iret) :=
  of_shape rfl (by simp [Instr.operandBytes]) (by simp [Instr.regOperands, Instr.operandBytes])

theorem push (a : Byte) : Statement (Instr.push a) :=
  of_shape rfl (by simp [Instr.operandBytes]) (by simp [Instr.regOperands, Instr.operandBytes])

theorem pop (a : Byte) : Statement (Instr.pop a) :=
  of_shape rfl (by simp [Instr.operandBytes]) (by simp [Instr.regOperands, Instr.operandBytes])

theorem prn (a : Byte) : Statement (Instr.prn a) :=
  of_shape rfl (by simp [Instr.operandBytes]) (by simp [Instr.regOperands, Instr.operandBytes])

theorem pra (a : Byte) : Statement (Instr.pra a) :=
  of_shape rfl (by simp [Instr.operandBytes]) (by simp [Instr.regOperands, Instr.operandBytes])

theorem call (a : Byte) : Statement (Instr.call a) :=
  of_shape rfl (by simp [Instr.operandBytes]) (by simp [Instr.regOperands, Instr.operandBytes])

theorem jmp (a : Byte) : Statement (Instr.jmp a) :=
  of_shape rfl (by simp [Instr.operandBytes]) (by simp [Instr.regOperands, Instr.operandBytes])

theorem jeq (a : Byte) : Statement (Instr.jeq a) :=
  of_shape rfl (by simp [Instr.operandBytes]) (by simp [Instr.regOperands, Instr.operandBytes])

theorem jne (a : Byte) : Statement (Instr.jne a) :=
  of_shape rfl (by simp [Instr.operandBytes]) (by simp [Instr.regOperands, Instr.operandBytes])

theorem ldi (a imm : Byte) : Statement (Instr.ldi a imm) :=
  of_shape rfl (by simp [Instr.operandBytes]) (by simp [Instr.regOperands, Instr.operandBytes])

theorem ld (a b : Byte) : Statement (Instr.ld a b) :=
  of_shape rfl (by simp [Instr.operandBytes]) (by simp [Instr.regOperands, Instr.operandBytes])

theorem st (a b : Byte) : Statement (Instr.st a b) :=
  of_shape rfl (by simp [Instr.operandBytes]) (by simp [Instr.regOperands, Instr.operandBytes])

end Sys2Proof.Laws.EncodeLength
end

