-- ==== Sys2Proof/Laws/Surroundings.lean ====
section
/-! SUPPORT. The machine does not look at earlier output nor at the inputs of later cycles (10_state.md R38, R40): each
operation, each instruction and a whole cycle commute with `State.reseat`, which changes only those. -/

namespace Sys2Proof.Machine

/-- The state with events put before its console, and with other inputs to come. -/
def State.reseat (s : State) (e : List Event) (ins : List Input) (n : Nat) : State :=
  { s with console := e ++ s.console, env := { s.env with inputs := ins, drawn := n } }

variable {α β : Type} {e : List Event} {ins : List Input} {n : Nat}

/-- A result with its state reseated. -/
def Res.reseat (r : Res α) (e : List Event) (ins : List Input) (n : Nat) : Res α :=
  match r with
  | .ok v s => .ok v (s.reseat e ins n)
  | .raised f s => .raised f (s.reseat e ins n)

/-- An outcome with its state reseated. -/
def reseatNext (o : Host.Outcome State Fault Refusal) (e : List Event) (ins : List Input) (n : Nat) :
    Host.Outcome State Fault Refusal :=
  match o with
  | .next s => .next (s.reseat e ins n)
  | .fault f => .fault f
  | .refused r => .refused r

@[simp] theorem reseat_reg (s : State) (j : Fin 8) : (s.reseat e ins n).reg j = s.reg j := rfl
@[simp] theorem reseat_pc (s : State) : (s.reseat e ins n).pc = s.pc := rfl
@[simp] theorem reseat_fl (s : State) : (s.reseat e ins n).fl = s.fl := rfl
@[simp] theorem reseat_mem (s : State) : (s.reseat e ins n).mem = s.mem := rfl
@[simp] theorem reseat_status (s : State) : (s.reseat e ins n).status = s.status := rfl
@[simp] theorem reseat_console (s : State) : (s.reseat e ins n).console = e ++ s.console := rfl
@[simp] theorem reseat_config (s : State) : (s.reseat e ins n).env.config = s.env.config := rfl
@[simp] theorem reseat_inputs (s : State) : (s.reseat e ins n).env.inputs = ins := rfl
@[simp] theorem reseat_drawn (s : State) : (s.reseat e ins n).env.drawn = n := rfl

/-- Sequencing: if the first part commutes and the rest does, the whole does. -/
theorem Res.bind_reseat {r r' : Res α} {k : α → State → Res β} (h : r' = r.reseat e ins n)
    (hk : ∀ v s, k v (s.reseat e ins n) = (k v s).reseat e ins n) : r'.bind k = (r.bind k).reseat e ins n := by
  subst h
  cases r <;> simp [Res.reseat, Res.bind, hk]

theorem ite_reseat {p : Prop} [Decidable p] {a b a' b' : Res α} (ha : a' = a.reseat e ins n)
    (hb : b' = b.reseat e ins n) : (if p then a' else b') = (if p then a else b).reseat e ins n := by
  split <;> assumption

/-! ## Operations -/

theorem checkReg_reseat (a : Byte) (s : State) : checkReg a (s.reseat e ins n) = (checkReg a s).reseat e ins n := by
  unfold checkReg
  split <;> rfl

theorem readReg_reseat (a : Byte) (s : State) : readReg a (s.reseat e ins n) = (readReg a s).reseat e ins n :=
  Res.bind_reseat (checkReg_reseat a s) fun _ _ => rfl

theorem writeReg_reseat (a v : Byte) (s : State) : writeReg a v (s.reseat e ins n) = (writeReg a v s).reseat e ins n :=
  Res.bind_reseat (checkReg_reseat a s) fun _ _ => rfl

theorem memRead_reseat (a : Nat) (s : State) : memRead a (s.reseat e ins n) = (memRead a s).reseat e ins n := by
  unfold memRead
  split <;> rfl

theorem memWrite_reseat (a : Nat) (v : Byte) (s : State) :
    memWrite a v (s.reseat e ins n) = (memWrite a v s).reseat e ins n := by
  unfold memWrite
  split <;> rfl

theorem stackDown_reseat (s : State) : stackDown (s.reseat e ins n) = (stackDown s).reseat e ins n :=
  ite_reseat (p := s.reg SP = 0#8) rfl rfl

theorem push_reseat (v : Byte) (s : State) : push v (s.reseat e ins n) = (push v s).reseat e ins n :=
  Res.bind_reseat (stackDown_reseat s) fun _ u => memWrite_reseat _ v u

theorem stackTop_reseat (c : Config) (s : State) : stackTop c (s.reseat e ins n) = (stackTop c s).reseat e ins n :=
  ite_reseat (p := c.spInit.toNat ≤ (s.reg SP).toNat) rfl (memRead_reseat _ s)

theorem pop_reseat (c : Config) (s : State) : pop c (s.reseat e ins n) = (pop c s).reseat e ins n :=
  Res.bind_reseat (stackTop_reseat c s) fun _ _ => rfl

theorem pushRegs_reseat (rs : List (Fin 8)) (s : State) :
    pushRegs rs (s.reseat e ins n) = (pushRegs rs s).reseat e ins n := by
  induction rs generalizing s with
  | nil => rfl
  | cons r rs ih => exact Res.bind_reseat (push_reseat _ s) fun _ u => ih u

theorem popRegs_reseat (c : Config) (rs : List (Fin 8)) (s : State) :
    popRegs c rs (s.reseat e ins n) = (popRegs c rs s).reseat e ins n := by
  induction rs generalizing s with
  | nil => rfl
  | cons r rs ih => exact Res.bind_reseat (pop_reseat c s) fun v u => ih (u.setReg r v)

theorem emit_reseat (v : Event) (s : State) : emit v (s.reseat e ins n) = (emit v s).reseat e ins n := by
  simp [emit, State.reseat]

/-! ## Instructions -/

theorem outcome_reseat {r r' : Res Unit} (h : r' = r.reseat e ins n) :
    r'.outcome = reseatNext r.outcome e ins n := by
  subst h
  cases r <;> rfl

theorem onTwoRegs_reseat (f : Byte → Byte → Byte) (a b : Byte) (s : State) :
    onTwoRegs f a b (s.reseat e ins n) = (onTwoRegs f a b s).reseat e ins n :=
  Res.bind_reseat (readReg_reseat a s) fun _ u => Res.bind_reseat (readReg_reseat b u) fun _ w => writeReg_reseat a _ w

theorem onOneReg_reseat (f : Byte → Byte) (a : Byte) (s : State) :
    onOneReg f a (s.reseat e ins n) = (onOneReg f a s).reseat e ins n :=
  Res.bind_reseat (readReg_reseat a s) fun _ u => writeReg_reseat a _ u

theorem onRegAndCount_reseat (f : Byte → Nat → Byte) (a k : Byte) (s : State) :
    onRegAndCount f a k (s.reseat e ins n) = (onRegAndCount f a k s).reseat e ins n :=
  Res.bind_reseat (readReg_reseat a s) fun _ u => writeReg_reseat a _ u

theorem jumpTo_reseat (a : Byte) (s : State) : jumpTo a (s.reseat e ins n) = (jumpTo a s).reseat e ins n :=
  Res.bind_reseat (readReg_reseat a s) fun _ _ => rfl

theorem exec_reseat (i : Instr) (s : State) : exec i (s.reseat e ins n) = reseatNext (exec i s) e ins n := by
  cases i with
  | add | sub | mul | and | or | xor => exact outcome_reseat (onTwoRegs_reseat _ _ _ s)
  | inc | dec | not => exact outcome_reseat (onOneReg_reseat _ _ s)
  | shl | shr => exact outcome_reseat (onRegAndCount_reseat _ _ _ s)
  | div a b =>
    exact outcome_reseat (Res.bind_reseat (readReg_reseat a s) fun _ u => Res.bind_reseat (readReg_reseat b u) fun _ w =>
      ite_reseat rfl (writeReg_reseat a _ w))
  | cmp a b =>
    exact outcome_reseat (Res.bind_reseat (readReg_reseat a s) fun _ u => Res.bind_reseat (readReg_reseat b u) fun _ _ => rfl)
  | hlt => rfl
  | ret => exact outcome_reseat (Res.bind_reseat (pop_reseat _ s) fun _ _ => rfl)
  | iret =>
    exact outcome_reseat (Res.bind_reseat (popRegs_reseat _ _ s) fun _ u => Res.bind_reseat (pop_reseat _ u) fun _ w =>
      Res.bind_reseat (pop_reseat _ (setFl _ w)) fun _ _ => rfl)
  | push a =>
    exact outcome_reseat (Res.bind_reseat (checkReg_reseat a s) fun _ u => Res.bind_reseat (stackDown_reseat u) fun _ w =>
      memWrite_reseat _ _ w)
  | pop a => exact outcome_reseat (Res.bind_reseat (checkReg_reseat a s) fun _ u => Res.bind_reseat (stackTop_reseat _ u) fun _ _ => rfl)
  | prn a | pra a =>
    exact outcome_reseat (Res.bind_reseat (readReg_reseat a s) fun _ u => by rw [emit_reseat]; rfl)
  | call a => exact outcome_reseat (Res.bind_reseat (checkReg_reseat a s) fun _ u => Res.bind_reseat (push_reseat _ u) fun _ _ => rfl)
  | jmp a => exact outcome_reseat (jumpTo_reseat a s)
  | jeq a => exact outcome_reseat (ite_reseat (jumpTo_reseat a s) rfl)
  | jne a => exact outcome_reseat (ite_reseat rfl (jumpTo_reseat a s))
  | ldi a imm => exact outcome_reseat (writeReg_reseat a imm s)
  | ld a b =>
    exact outcome_reseat (Res.bind_reseat (Res.bind_reseat (readReg_reseat b s) fun _ u => memRead_reseat _ u) fun _ u =>
      writeReg_reseat a _ u)
  | st a b =>
    exact outcome_reseat (Res.bind_reseat (readReg_reseat a s) fun _ u => Res.bind_reseat (readReg_reseat b u) fun _ w =>
      memWrite_reseat _ _ w)

/-! ## A cycle -/

theorem enter_reseat (c : Config) (i : Fin 8) (s : State) : enter c i (s.reseat e ins n) = (enter c i s).reseat e ins n :=
  Res.bind_reseat (Res.bind_reseat (push_reseat _ (clearPending i s)) fun _ u => Res.bind_reseat (push_reseat _ u) fun _ w =>
    pushRegs_reseat _ w) fun _ u => Res.bind_reseat (memRead_reseat _ u) fun _ _ => rfl

theorem service_reseat (c : Config) (s : State) : service c (s.reseat e ins n) = (service c s).reseat e ins n := by
  unfold service
  rw [show serviceable (s.reseat e ins n) = serviceable s from rfl]
  cases arbiter (serviceable s) with
  | none => rfl
  | some i => exact enter_reseat c i s

theorem interruptController_reseat (c : Config) (inp : Input) (s : State) :
    interruptController c inp (s.reseat e ins n) = (interruptController c inp s).reseat e ins n := by
  refine Res.bind_reseat ?_ fun _ u => service_reseat c u
  obtain ⟨tick, key⟩ := inp
  have ht : latchTimer tick (s.reseat e ins n) = (latchTimer tick s).reseat e ins n := by cases tick <;> rfl
  rw [ht]
  cases key with
  | none => rfl
  | some k =>
    let u := latchTimer tick s
    exact memWrite_reseat c.keyAddr.toNat k (u.setReg IS (u.reg IS ||| lineBit 1))

theorem fetch_reseat (s : State) : fetch (s.reseat e ins n) = (fetch s).reseat e ins n :=
  Res.bind_reseat (memRead_reseat _ s) fun _ u => Res.bind_reseat (memRead_reseat _ u) fun _ w =>
    Res.bind_reseat (memRead_reseat _ w) fun _ _ => rfl

theorem decodeFetched_reseat (c : Config) (t : Triple) (s : State) :
    decodeFetched c t (s.reseat e ins n) = (decodeFetched c t s).reseat e ins n := by
  unfold decodeFetched
  split <;> rfl

theorem frontEndOn_reseat (c : Config) (inp : Input) (s : State) :
    frontEndOn c inp (s.reseat e ins n) = (frontEndOn c inp s).reseat e ins n :=
  Res.bind_reseat (interruptController_reseat c inp s) fun _ u => Res.bind_reseat (fetch_reseat u) fun _ w =>
    Res.bind_reseat (decodeFetched_reseat c _ w) fun _ _ => rfl

theorem advance_reseat (op : Byte) (s : State) : advance op (s.reseat e ins n) = (advance op s).reseat e ins n := by
  unfold advance
  rw [show (s.reseat e ins n).isFaulted = s.isFaulted from rfl]
  cases s.isFaulted || opSetsPc op <;> rfl

/-- A cycle with given inputs commutes with a change of earlier output and of the inputs to come. -/
theorem cycle_reseat (inp : Input) (s : State) : cycle inp (s.reseat e ins n) = reseatNext (cycle inp s) e ins n := by
  unfold cycle
  rw [reseat_config, frontEndOn_reseat]
  cases frontEndOn s.env.config inp s with
  | raised f u => rfl
  | ok p u =>
    obtain ⟨op, i⟩ := p
    simp only [Res.reseat, exec_reseat]
    cases exec i u <;> simp [afterExec, reseatNext, advance_reseat]

/-- The step of R122 with given inputs commutes with it too, running or not. -/
theorem stepOn_reseat (inp : Input) (s : State) : stepOn inp (s.reseat e ins n) = reseatNext (stepOn inp s) e ins n := by
  unfold stepOn
  rw [reseat_status]
  cases s.status with
  | running => exact cycle_reseat inp s
  | halted => rfl
  | faulted f => rfl

end Sys2Proof.Machine
end

