-- ==== Sys2Proof/Tests/Slice0.lean ====
section
/-! SUPPORT. The model's own tests. Expected results come from the spec: the encodings are written out bit by bit from
30_encoding.md R83 and R86, the results are the vectors V-… of 95_test_vectors.md (hand calculations from the rules, of
which no run exists). The last part shows, for every obligation with hypotheses, states and operands that meet them. -/

namespace Sys2Proof.Tests

open Sys2Proof Sys2Proof.Machine

/-! ## Well-formedness: a term refused for each register operand, at the first byte that names no register -/

theorem test_wf_add :
    Instr.wellFormed (.add 7 7) = true ∧ Instr.wellFormed (.add 8 7) = false ∧ Instr.wellFormed (.add 7 8) = false := by decide
theorem test_wf_sub :
    Instr.wellFormed (.sub 7 7) = true ∧ Instr.wellFormed (.sub 8 7) = false ∧ Instr.wellFormed (.sub 7 8) = false := by decide
theorem test_wf_mul :
    Instr.wellFormed (.mul 7 7) = true ∧ Instr.wellFormed (.mul 8 7) = false ∧ Instr.wellFormed (.mul 7 8) = false := by decide
theorem test_wf_div :
    Instr.wellFormed (.div 7 7) = true ∧ Instr.wellFormed (.div 8 7) = false ∧ Instr.wellFormed (.div 7 8) = false := by decide
theorem test_wf_inc :
    Instr.wellFormed (.inc 7) = true ∧ Instr.wellFormed (.inc 8) = false := by decide
theorem test_wf_dec :
    Instr.wellFormed (.dec 7) = true ∧ Instr.wellFormed (.dec 8) = false := by decide
theorem test_wf_cmp :
    Instr.wellFormed (.cmp 7 7) = true ∧ Instr.wellFormed (.cmp 8 7) = false ∧ Instr.wellFormed (.cmp 7 8) = false := by decide
theorem test_wf_and :
    Instr.wellFormed (.and 7 7) = true ∧ Instr.wellFormed (.and 8 7) = false ∧ Instr.wellFormed (.and 7 8) = false := by decide
theorem test_wf_not :
    Instr.wellFormed (.not 7) = true ∧ Instr.wellFormed (.not 8) = false := by decide
theorem test_wf_or :
    Instr.wellFormed (.or 7 7) = true ∧ Instr.wellFormed (.or 8 7) = false ∧ Instr.wellFormed (.or 7 8) = false := by decide
theorem test_wf_xor :
    Instr.wellFormed (.xor 7 7) = true ∧ Instr.wellFormed (.xor 8 7) = false ∧ Instr.wellFormed (.xor 7 8) = false := by decide
theorem test_wf_shl :
    Instr.wellFormed (.shl 7 8) = true ∧ Instr.wellFormed (.shl 8 0) = false := by decide
theorem test_wf_shr :
    Instr.wellFormed (.shr 7 8) = true ∧ Instr.wellFormed (.shr 8 0) = false := by decide
theorem test_wf_hlt : Instr.wellFormed .hlt = true := by decide
theorem test_wf_ret : Instr.wellFormed .ret = true := by decide
theorem test_wf_iret : Instr.wellFormed .iret = true := by decide
theorem test_wf_push :
    Instr.wellFormed (.push 7) = true ∧ Instr.wellFormed (.push 8) = false := by decide
theorem test_wf_pop :
    Instr.wellFormed (.pop 7) = true ∧ Instr.wellFormed (.pop 8) = false := by decide
theorem test_wf_prn :
    Instr.wellFormed (.prn 7) = true ∧ Instr.wellFormed (.prn 8) = false := by decide
theorem test_wf_pra :
    Instr.wellFormed (.pra 7) = true ∧ Instr.wellFormed (.pra 8) = false := by decide
theorem test_wf_call :
    Instr.wellFormed (.call 7) = true ∧ Instr.wellFormed (.call 8) = false := by decide
theorem test_wf_jmp :
    Instr.wellFormed (.jmp 7) = true ∧ Instr.wellFormed (.jmp 8) = false := by decide
theorem test_wf_jeq :
    Instr.wellFormed (.jeq 7) = true ∧ Instr.wellFormed (.jeq 8) = false := by decide
theorem test_wf_jne :
    Instr.wellFormed (.jne 7) = true ∧ Instr.wellFormed (.jne 8) = false := by decide
theorem test_wf_ldi :
    Instr.wellFormed (.ldi 7 8) = true ∧ Instr.wellFormed (.ldi 8 0) = false := by decide
theorem test_wf_ld :
    Instr.wellFormed (.ld 7 7) = true ∧ Instr.wellFormed (.ld 8 7) = false ∧ Instr.wellFormed (.ld 7 8) = false := by decide
theorem test_wf_st :
    Instr.wellFormed (.st 7 7) = true ∧ Instr.wellFormed (.st 8 7) = false ∧ Instr.wellFormed (.st 7 8) = false := by decide

/-! ## Decoding: the opcode byte of R86, bit 7 first, with operand bytes 00000101 and 00000110 -/

theorem test_decode_add : decode defaultOpc 0b10100000#8 0b00000101#8 0b00000110#8 = .ok (.add 5 6) := by rfl
theorem test_decode_sub : decode defaultOpc 0b10100001#8 0b00000101#8 0b00000110#8 = .ok (.sub 5 6) := by rfl
theorem test_decode_mul : decode defaultOpc 0b10100010#8 0b00000101#8 0b00000110#8 = .ok (.mul 5 6) := by rfl
theorem test_decode_div : decode defaultOpc 0b10100011#8 0b00000101#8 0b00000110#8 = .ok (.div 5 6) := by rfl
theorem test_decode_inc : decode defaultOpc 0b01100101#8 0b00000101#8 0b00000110#8 = .ok (.inc 5) := by rfl
theorem test_decode_dec : decode defaultOpc 0b01100110#8 0b00000101#8 0b00000110#8 = .ok (.dec 5) := by rfl
theorem test_decode_cmp : decode defaultOpc 0b10100111#8 0b00000101#8 0b00000110#8 = .ok (.cmp 5 6) := by rfl
theorem test_decode_and : decode defaultOpc 0b10101000#8 0b00000101#8 0b00000110#8 = .ok (.and 5 6) := by rfl
theorem test_decode_not : decode defaultOpc 0b01101001#8 0b00000101#8 0b00000110#8 = .ok (.not 5) := by rfl
theorem test_decode_or : decode defaultOpc 0b10101010#8 0b00000101#8 0b00000110#8 = .ok (.or 5 6) := by rfl
theorem test_decode_xor : decode defaultOpc 0b10101011#8 0b00000101#8 0b00000110#8 = .ok (.xor 5 6) := by rfl
theorem test_decode_shl : decode defaultOpc 0b10101100#8 0b00000101#8 0b00000110#8 = .ok (.shl 5 6) := by rfl
theorem test_decode_shr : decode defaultOpc 0b10101101#8 0b00000101#8 0b00000110#8 = .ok (.shr 5 6) := by rfl
theorem test_decode_hlt : decode defaultOpc 0b00000001#8 0b00000101#8 0b00000110#8 = .ok .hlt := by rfl
theorem test_decode_ret : decode defaultOpc 0b00010001#8 0b00000101#8 0b00000110#8 = .ok .ret := by rfl
theorem test_decode_iret : decode defaultOpc 0b00010011#8 0b00000101#8 0b00000110#8 = .ok .iret := by rfl
theorem test_decode_push : decode defaultOpc 0b01000101#8 0b00000101#8 0b00000110#8 = .ok (.push 5) := by rfl
theorem test_decode_pop : decode defaultOpc 0b01000110#8 0b00000101#8 0b00000110#8 = .ok (.pop 5) := by rfl
theorem test_decode_prn : decode defaultOpc 0b01000111#8 0b00000101#8 0b00000110#8 = .ok (.prn 5) := by rfl
theorem test_decode_pra : decode defaultOpc 0b01001000#8 0b00000101#8 0b00000110#8 = .ok (.pra 5) := by rfl
theorem test_decode_call : decode defaultOpc 0b01010000#8 0b00000101#8 0b00000110#8 = .ok (.call 5) := by rfl
theorem test_decode_jmp : decode defaultOpc 0b01010100#8 0b00000101#8 0b00000110#8 = .ok (.jmp 5) := by rfl
theorem test_decode_jeq : decode defaultOpc 0b01010101#8 0b00000101#8 0b00000110#8 = .ok (.jeq 5) := by rfl
theorem test_decode_jne : decode defaultOpc 0b01010110#8 0b00000101#8 0b00000110#8 = .ok (.jne 5) := by rfl
theorem test_decode_ldi : decode defaultOpc 0b10000010#8 0b00000101#8 0b00000110#8 = .ok (.ldi 5 6) := by rfl
theorem test_decode_ld : decode defaultOpc 0b10000011#8 0b00000101#8 0b00000110#8 = .ok (.ld 5 6) := by rfl
theorem test_decode_st : decode defaultOpc 0b10000100#8 0b00000101#8 0b00000110#8 = .ok (.st 5 6) := by rfl

/-- The table numbers byte 0 in the lowest bits: `ADD R5, R6` is the 24-bit word 06 05 A0. -/
theorem test_table_word_add : decodeTableWord 24 0x0605A0 = some (.add 5 6) := by decide
/-- A word shorter than the fetched triple is completed with zeros. -/
theorem test_table_word_prn : decodeTableWord 16 0x0547 = some (.prn 5) := by decide
theorem test_table_word_short : decodeTableWord 8 0x82 = some (.ldi 0 0) := by decide
/-- R89: the all-zero byte and the bytes the public LS-8 description uses for other instructions are illegal. -/
theorem test_decode_zero : decode defaultOpc 0x00#8 0 0 = .error (.unsupportedInstruction 0x00#8) := by rfl
theorem test_decode_int : decode defaultOpc 0x52#8 0 0 = .error (.unsupportedInstruction 0x52#8) := by rfl
theorem test_decode_jgt : decode defaultOpc 0x57#8 0 0 = .error (.unsupportedInstruction 0x57#8) := by rfl
theorem test_decode_mod : decode defaultOpc 0xA4#8 0 0 = .error (.unsupportedOperation 0xA4#8) := by rfl
set_option maxRecDepth 8000 in
/-- R88: 27 of the 256 opcode bytes are instructions, 115 of the others have bit 5 set and 114 have it clear. -/
theorem test_decode_counts :
    ((List.range 256).filter fun n => (decodeTableWord 8 n).isSome).length = 27 ∧
    ((List.range 256).filter fun n => (decodeTableWord 8 n).isNone && opIsAlu (BitVec.ofNat 8 n)).length = 115 ∧
    ((List.range 256).filter fun n => (decodeTableWord 8 n).isNone && !opIsAlu (BitVec.ofNat 8 n)).length = 114 := by
  decide

/-! ## One cycle each: the vectors of 95_test_vectors.md -/

/-- The state after one step. -/
def afterStep (s : State) : State :=
  match step s with
  | .next t => t
  | .fault _ => s
  | .refused _ => s

/-- A running state with the given registers and flags, `PC` at an address where the given bytes stand; memory is zero
elsewhere; one quiet cycle's input is listed. -/
def at' (pc : Byte) (regs : Vector Byte 8) (fl : FlagBits) (code : List Byte) : State :=
  { State.boot Config.core [] [quietInput] with regs := regs, pc := pc, fl := fl, mem := Memory.load code pc.toNat [] }

/-- A state with other inputs listed. -/
def withInputs (inputs : List Input) (s : State) : State := { s with env := { s.env with inputs := inputs } }

/-- A state with one more byte in memory. -/
def withByte (a : Nat) (v : Byte) (s : State) : State := { s with mem := s.mem.write a v }

/-- V-ADD-2. -/
theorem test_add_wraps :
    let t := afterStep (at' 0x10 #v[255, 1, 0, 0, 0, 0, 0, 0x74] 0 [0xA0, 0, 1])
    t.reg 0 = 0 ∧ t.pc = 0x13 := by
  decide

/-- V-ADD-6: register 7 is an ordinary operand. -/
theorem test_add_into_sp :
    let t := afterStep (at' 0x10 #v[2, 0, 0, 0, 0, 0, 0, 0x74] 0 [0xA0, 7, 0])
    t.reg 7 = 0x76 ∧ t.reg 0 = 2 := by
  decide

/-- V-SUB-1. -/
theorem test_sub_borrows :
    let t := afterStep (at' 0x10 #v[0, 0, 3, 5, 0, 0, 0, 0x74] 0 [0xA1, 2, 3])
    t.reg 2 = 254 ∧ t.reg 3 = 5 := by
  decide

/-- V-MUL-4: 20 * 13 = 260. -/
theorem test_mul_low_byte :
    let t := afterStep (at' 0x10 #v[20, 13, 0, 0, 0, 0, 0, 0x74] 0 [0xA2, 0, 1])
    t.reg 0 = 4 ∧ t.fl = 0 := by
  decide

/-- V-DIV-1. -/
theorem test_div_floors :
    let t := afterStep (at' 0x10 #v[200, 7, 0, 0, 0, 0, 0, 0x74] 0 [0xA3, 0, 1])
    t.reg 0 = 28 := by
  decide

/-- V-DIV-2. -/
theorem test_div_by_zero :
    let t := afterStep (at' 0x10 #v[5, 0, 0, 0, 0, 0, 0, 0x74] 0 [0xA3, 0, 1])
    t.status = .faulted (.divisionByZero 0x10) ∧ t.reg 0 = 5 ∧ t.pc = 0x10 := by
  decide

/-- V-INC-1. -/
theorem test_inc_wraps :
    let t := afterStep (at' 0x10 #v[0, 255, 0, 0, 0, 0, 0, 0x74] 0 [0x65, 1])
    t.reg 1 = 0 ∧ t.pc = 0x12 := by
  decide

/-- V-DEC-1. -/
theorem test_dec_wraps :
    let t := afterStep (at' 0x10 #v[0, 0, 0, 0, 0, 0, 0, 0x74] 0 [0x66, 1])
    t.reg 1 = 255 ∧ t.fl = 0 := by
  decide

/-- V-CMP-2. -/
theorem test_cmp_less :
    let t := afterStep (at' 0x10 #v[3, 5, 0, 0, 0, 0, 0, 0x74] 0 [0xA7, 0, 1])
    t.fl = 0b100 ∧ t.reg 0 = 3 := by
  decide

/-- V-CMP-4. -/
theorem test_cmp_unsigned :
    let t := afterStep (at' 0x10 #v[0x80, 0x7F, 0, 0, 0, 0, 0, 0x74] 0 [0xA7, 0, 1])
    t.fl = 0b010 := by
  decide

/-- V-AND-1. -/
theorem test_and :
    let t := afterStep (at' 0x10 #v[0xCC, 0xAA, 0, 0, 0, 0, 0, 0x74] 0 [0xA8, 0, 1])
    t.reg 0 = 0x88 := by
  decide

/-- V-NOT-2: the byte 255 after it is not looked at. -/
theorem test_not_ignores_operand_b :
    let t := afterStep (at' 0x10 #v[0, 0, 0, 0, 0, 0, 0, 0x74] 0 [0x69, 4, 255])
    t.reg 4 = 255 ∧ t.pc = 0x12 := by
  decide

/-- V-OR-1. -/
theorem test_or :
    let t := afterStep (at' 0x10 #v[0xCC, 0xAA, 0, 0, 0, 0, 0, 0x74] 0 [0xAA, 0, 1])
    t.reg 0 = 0xEE := by
  decide

/-- V-XOR-1. -/
theorem test_xor :
    let t := afterStep (at' 0x10 #v[0xCC, 0xAA, 0, 0, 0, 0, 0, 0x74] 0 [0xAB, 0, 1])
    t.reg 0 = 0x66 := by
  decide

/-- V-SHL-6: the count is 1, not the 5 in register 1. -/
theorem test_shl_literal_count :
    let t := afterStep (at' 0x10 #v[3, 5, 0, 0, 0, 0, 0, 0x74] 0 [0xAC, 0, 1])
    t.reg 0 = 6 := by
  decide

/-- V-SHL-5. -/
theorem test_shl_past_the_width :
    let t := afterStep (at' 0x10 #v[255, 0, 0, 0, 0, 0, 0, 0x74] 0 [0xAC, 0, 255])
    t.reg 0 = 0 ∧ t.status = .running := by
  decide

/-- V-SHR-1. -/
theorem test_shr_is_logical :
    let t := afterStep (at' 0x10 #v[0x81, 0, 0, 0, 0, 0, 0, 0x74] 0 [0xAD, 0, 1])
    t.reg 0 = 0x40 := by
  decide

/-- V-HLT-1. -/
theorem test_hlt_advances :
    let t := afterStep (at' 0x00 #v[0, 0, 0, 0, 0, 0, 0, 0x74] 0 [0x01])
    t.status = .halted ∧ t.pc = 1 := by
  decide

/-- V-FET-3. -/
theorem test_hlt_at_253 :
    let t := afterStep (at' 0xFD #v[0, 0, 0, 0, 0, 0, 0, 0x74] 0 [0x01])
    t.status = .halted ∧ t.pc = 0xFE := by
  decide

/-- V-RET-1. -/
theorem test_ret :
    let t := afterStep (withByte 0x73 0x08 (at' 0x20 #v[0, 0, 0, 0, 0, 0, 0, 0x73] 0 [0x11]))
    t.pc = 0x08 ∧ t.reg 7 = 0x74 := by
  decide

/-- V-RET-2. -/
theorem test_ret_on_empty_stack :
    let t := afterStep (at' 0x10 #v[0, 0, 0, 0, 0, 0, 0, 0x74] 0 [0x11])
    t.status = .faulted (.outOfRange .stackPop) ∧ t.pc = 0x10 := by
  decide

/-- V-IRET-2: the flag byte FD gives 5. -/
theorem test_iret :
    let t := afterStep ({ at' 0x48 #v[0, 0, 0, 0, 0, 0, 0, 0x6B] 0 [0x13] with mem := Memory.load [1, 2, 3, 4, 5, 6, 7, 0xFD, 0x80] 0x6B [(0x48, 0x13)] })
    t.regs = #v[7, 6, 5, 4, 3, 2, 1, 0x74] ∧ t.fl = 5 ∧ t.pc = 0x80 := by
  decide

/-- V-IRET-3: four pops, then the fault. -/
theorem test_iret_part_way :
    let t := afterStep ({ at' 0x48 #v[0, 0, 0, 0, 0, 0, 0, 0x70] 0 [0x13] with mem := Memory.load [0xA6, 0xA5, 0xA4, 0xA3] 0x70 [(0x48, 0x13)] })
    t.regs = #v[0, 0, 0, 0xA3, 0xA4, 0xA5, 0xA6, 0x74] ∧ t.status = .faulted (.outOfRange .stackPop) ∧ t.pc = 0x48 := by
  decide

/-- V-PUSH-1. -/
theorem test_push :
    let t := afterStep (at' 0x10 #v[0x2A, 0, 0, 0, 0, 0, 0, 0x74] 0 [0x45, 0])
    t.reg 7 = 0x73 ∧ t.mem.read 0x73 = 0x2A := by
  decide

/-- V-PUSH-2: the decremented pointer is stored. -/
theorem test_push_r7 :
    let t := afterStep (at' 0x10 #v[0, 0, 0, 0, 0, 0, 0, 0x74] 0 [0x45, 7])
    t.reg 7 = 0x73 ∧ t.mem.read 0x73 = 0x73 := by
  decide

/-- V-POP-1. -/
theorem test_pop :
    let t := afterStep (withByte 0x73 0x2A (at' 0x10 #v[0, 0, 0, 0, 0, 0, 0, 0x73] 0 [0x46, 1]))
    t.reg 1 = 0x2A ∧ t.reg 7 = 0x74 := by
  decide

/-- V-POP-3: the popped 255 is incremented. -/
theorem test_pop_r7 :
    let t := afterStep (withByte 0x73 0xFF (at' 0x10 #v[0, 0, 0, 0, 0, 0, 0, 0x73] 0 [0x46, 7]))
    t.reg 7 = 0 ∧ t.pc = 0x12 := by
  decide

/-- V-PRN-1. -/
theorem test_prn :
    let t := afterStep (at' 0x10 #v[10, 0, 0, 0, 0, 0, 0, 0x74] 0 [0x47, 0])
    t.console = [.dec 10] ∧ t.output = ['1', '0', Char.ofNat 10] := by
  decide

/-- V-PRA-1. -/
theorem test_pra :
    let t := afterStep (at' 0x10 #v[0x41, 0, 0, 0, 0, 0, 0, 0x74] 0 [0x48, 0])
    t.console = [.chr 0x41] ∧ t.output = ['A'] := by
  decide

/-- V-CALL-2: at 253 the return address is 255. -/
theorem test_call_wraps :
    let t := afterStep (at' 0xFD #v[0, 0x20, 0, 0, 0, 0, 0, 0x74] 0 [0x50, 1])
    t.mem.read 0x73 = 0xFF ∧ t.pc = 0x20 ∧ t.reg 7 = 0x73 := by
  decide

/-- V-CALL-3: the target is the decremented pointer. -/
theorem test_call_r7 :
    let t := afterStep (at' 0x10 #v[0, 0, 0, 0, 0, 0, 0, 0x74] 0 [0x50, 7])
    t.pc = 0x73 ∧ t.mem.read 0x73 = 0x12 := by
  decide

/-- V-JMP-1. -/
theorem test_jmp :
    let t := afterStep (at' 0x10 #v[0, 0, 0x30, 0, 0, 0, 0, 0x74] 0 [0x54, 2])
    t.pc = 0x30 := by
  decide

/-- V-JEQ-3: only bit 0 is tested. -/
theorem test_jeq_taken :
    let t := afterStep (at' 0x0C #v[0, 0, 0x30, 0, 0, 0, 0, 0x74] 3 [0x55, 2])
    t.pc = 0x30 ∧ t.fl = 3 := by
  decide

/-- V-JEQ-4: the register is not accessed. -/
theorem test_jeq_not_taken :
    let t := afterStep (at' 0x0C #v[0, 0, 0, 0, 0, 0, 0, 0x74] 0 [0x55, 9])
    t.pc = 0x0E ∧ t.status = .running := by
  decide

/-- V-JNE-4. -/
theorem test_jne_taken :
    let t := afterStep (at' 0x0C #v[0, 0, 0x30, 0, 0, 0, 0, 0x74] 6 [0x56, 2])
    t.pc = 0x30 := by
  decide

/-- V-JNE-2. -/
theorem test_jne_not_taken :
    let t := afterStep (at' 0x0C #v[0, 0, 0x30, 0, 0, 0, 0, 0x74] 1 [0x56, 2])
    t.pc = 0x0E := by
  decide

/-- V-LDI-1, the worked example of the source. -/
theorem test_ldi :
    let t := afterStep (at' 0x10 #v[0, 0, 0, 0, 0, 0, 0, 0x74] 0 [0x82, 0, 10])
    t.reg 0 = 10 ∧ t.pc = 0x13 := by
  decide

/-- V-FET-4: a three-byte instruction at 253. -/
theorem test_ldi_wraps_pc :
    let t := afterStep (at' 0xFD #v[0, 0, 0, 0, 0, 0, 0, 0x74] 0 [0x82, 0, 9])
    t.reg 0 = 9 ∧ t.pc = 0 := by
  decide

/-- V-LD-1. -/
theorem test_ld :
    let t := afterStep (withByte 0xF4 0x41 (at' 0x10 #v[0, 0xF4, 0, 0, 0, 0, 0, 0x74] 0 [0x83, 0, 1]))
    t.reg 0 = 0x41 ∧ t.reg 1 = 0xF4 := by
  decide

/-- R161: with both operands illegal, `b` is reported. -/
theorem test_ld_checks_b_first :
    let t := afterStep (at' 0x10 #v[0, 0, 0, 0, 0, 0, 0, 0x74] 0 [0x83, 9, 8])
    t.status = .faulted (.outOfRange (.reg 8)) := by
  decide

/-- V-ST-1. -/
theorem test_st :
    let t := afterStep (at' 0x10 #v[0xF8, 0x40, 0, 0, 0, 0, 0, 0x74] 0 [0x84, 0, 1])
    t.mem.read 0xF8 = 0x40 ∧ t.reg 0 = 0xF8 := by
  decide

/-- V-FET-1. -/
theorem test_fetch_at_254 :
    let t := afterStep (at' 0xFE #v[0, 0, 0, 0, 0, 0, 0, 0x74] 0 [0x01])
    t.status = .faulted (.outOfRange (.mem 256)) ∧ t.pc = 0xFE := by
  decide

/-- V-ILL-6: the controller ran before the fault. -/
theorem test_illegal_after_inputs :
    let t := afterStep (withInputs [⟨true, some 0x41⟩] (at' 0x10 #v[0, 0, 0, 0, 0, 0, 0, 0x74] 0 [0x00]))
    t.status = .faulted (.unsupportedInstruction 0) ∧ t.reg 6 = 3 ∧ t.mem.read 0xF4 = 0x41 := by
  decide

/-- V-INT-3: entry and the handler's first instruction in one cycle. -/
theorem test_interrupt_entry :
    let t := afterStep (withInputs [⟨true, none⟩] { at' 0x10 #v[17, 34, 51, 68, 85, 1, 0, 0x74] 4 [0x65, 0] with
      mem := Memory.load [0x40] 0xF8 (Memory.load [0x66, 1] 0x40 []) })
    t.pc = 0x42 ∧ t.reg 1 = 33 ∧ t.reg 6 = 0 ∧ t.reg 7 = 0x6B ∧
      [0x73, 0x72, 0x71, 0x70, 0x6F, 0x6E, 0x6D, 0x6C, 0x6B].map t.mem.read = [0x10, 4, 17, 34, 51, 68, 85, 1, 0] := by
  decide

/-- V-INT-8: lines 2 and 5 pending and enabled, line 2 is entered. -/
theorem test_interrupt_priority :
    let t := afterStep ({ at' 0x10 #v[0, 0, 0, 0, 0, 36, 36, 0x74] 0 [0x65, 0] with
      mem := Memory.load [0x40, 0, 0, 0x50] 0xFA (Memory.load [0x65, 1] 0x40 []) })
    t.pc = 0x42 ∧ t.reg 6 = 32 ∧ t.mem.read 0x6B = 32 := by
  decide

/-- V-INT-9: five pushes, then the fault. -/
theorem test_interrupt_stack_fault :
    let t := afterStep ({ at' 0x10 #v[0xAA, 0xBB, 0xCC, 0, 0, 1, 1, 5] 2 [0x65, 0] with mem := [(0x10, 0x65), (0xF8, 0x40)] })
    t.status = .faulted (.outOfRange .stackPush) ∧ t.reg 7 = 0 ∧ t.reg 6 = 0 ∧ t.pc = 0x10 ∧
      [4, 3, 2, 1, 0].map t.mem.read = [0x10, 2, 0xAA, 0xBB, 0xCC] := by
  decide

/-! ## Other configurations, and canonical memory -/

/-- Another legal configuration (R6): `SP_INIT` 0x60, `VEC_BASE` 0xF0, `KEY_ADDR` 0xEF, and opcodes of which the values of
`ADD` and `SUB`, of `INC` and `DEC`, of `RET` and `IRET` are exchanged. -/
def otherOpc (m : Mnemonic) : Byte :=
  match m with
  | .add => defaultOpc .sub
  | .sub => defaultOpc .add
  | .inc => defaultOpc .dec
  | .dec => defaultOpc .inc
  | .ret => defaultOpc .iret
  | .iret => defaultOpc .ret
  | m => defaultOpc m

def otherConfig : Config where
  spInit := 0x60
  vecBase := 0xF0
  keyAddr := 0xEF
  opcodes := OpcTable.of otherOpc

theorem other_legal : otherConfig.Legal where
  spPositive := by decide
  vectorsInMemory := by decide
  keyIsNoVector := by decide
  stackBelowVectors := by decide
  stackBelowKey := by decide
  opcLegal := {
    injective := by intro m n; cases m <;> cases n <;> first | exact fun _ => rfl | exact fun h => absurd h (by decide)
    operands := by intro m; cases m <;> rfl
    alu := by intro m; cases m <;> rfl
    setsPc := by intro m; cases m <;> rfl
    ldi := rfl
    prn := rfl
    hlt := rfl }

/-- Reset with it: the stack pointer is its `SP_INIT`, and the first byte of the image runs under its `OPC`. -/
theorem test_other_config :
    let s := State.boot otherConfig [0x65, 0] [quietInput]
    s.reg 7 = 0x60 ∧ (afterStep s).reg 0 = 255 := by
  decide
/-- Its stack bound: a `RET`, now 0x13, at 0x60 faults. -/
theorem test_other_config_stack :
    (afterStep (State.boot otherConfig [0x13] [quietInput])).status = .faulted (.outOfRange .stackPop) := by
  decide
/-- Its keyboard cell and its vector slots: the key is stored at 0xEF, line 1 enters through slot 0xF1 (V-INT-3's shape). -/
theorem test_other_config_interrupt :
    let t := stepWith otherConfig (withByte 0xF1 0x40 (at' 0x10 #v[0, 0, 0, 0, 0, 2, 0, 0x60] 0 [0x01])) false (some 0x41)
    t.mem.read 0xEF = 0x41 ∧ t.mem.read 0x5F = 0x10 ∧ t.pc = 0x40 ∧ t.status = .faulted (.unsupportedInstruction 0) := by
  decide
/-- R122: inputs are arguments; the listed ones are not looked at. -/
theorem test_step_with_inputs :
    (stepWith Config.core (withInputs [⟨false, some 9⟩] (at' 0x10 #v[0, 0, 0, 0, 0, 0, 0, 0x74] 0 [0x01])) true none).reg 6 = 1 := by
  decide

/-- Writing zero removes the entry: equal memories are equal data. -/
theorem test_memory_canonical : Memory.write (Memory.write (Memory.write [] 7 1) 3 2) 7 0 = [(3, 2)] := by decide
theorem test_memory_wf_refuses :
    Memory.wf [(3, 2), (3, 1)] = false ∧ Memory.wf [(3, 0)] = false ∧ Memory.wf [(256, 1)] = false ∧
    Memory.wf [(4, 1), (3, 1)] = false ∧ Memory.wf [(3, 1), (255, 1)] = true := by decide

/-! ## Witnesses: for each obligation with hypotheses, states and operands that meet them, at the boundaries -/

/-- A state with a given stack pointer and nothing else set. -/
def sp (v : Byte) : State := at' 0x10 #v[1, 2, 3, 4, 5, 0, 0, v] 0 [0x01]

theorem witness_BootEstablishesResetState :
    (List.replicate 256 (1 : Byte)).length ≤ 256 ∧ ([] : List Byte).length ≤ 256 ∧ (6 : Fin 8) ≠ SP ∧ 255 < 256 :=
  ⟨le_of_eq List.length_replicate, by decide, by decide, by decide⟩
theorem witness_BootStateSatisfiesInvariant :
    Config.core.Legal ∧ otherConfig.Legal ∧ (List.replicate 256 (1 : Byte)).length ≤ 256 :=
  ⟨Config.core_legal, other_legal, le_of_eq List.length_replicate⟩

theorem witness_StepKeepsInvariant : (sp 9).Inv ∧ ∃ t, step (sp 9) = .next t :=
  ⟨⟨Config.core_legal, by decide, trivial⟩, _, rfl⟩
/-- `State.reset` lists no input: its step runs on the environment's free draws, and answers a next state whatever they are. -/
theorem witness_StepKeepsInvariant_reset : State.reset.Inv ∧ ∃ t, step State.reset = .next t := by
  refine ⟨⟨Config.core_legal, by decide, trivial⟩, ?_⟩
  rw [step_of_frontEnd rfl]
  cases frontEnd State.reset with
  | raised f u => exact ⟨_, rfl⟩
  | ok p u =>
    obtain ⟨t, ht⟩ := exec_is_next p.2 u
    exact ⟨advance p.1 t, congrArg (afterExec p.1) ht⟩
theorem witness_StepKeepsInvariant_halted :
    ({ at' 0x11 #v[0, 0, 0, 0, 0, 0, 0, 0x74] 0 [] with mem := [(0x10, 1)], status := .halted } : State).Inv :=
  ⟨Config.core_legal, by decide, rfl⟩
theorem witness_StepKeepsInvariant_faulted :
    (takeFault (.divisionByZero 0x10) (at' 0x10 #v[5, 0, 0, 0, 0, 0, 0, 0x74] 0 [0xA3, 0, 1])).Inv ∧
    (takeFault (.outOfRange (.reg 8)) (at' 0x10 #v[5, 0, 0, 0, 0, 0, 0, 0x74] 0 [0x65, 8])).Inv ∧
    (takeFault (.outOfRange (.mem 256)) (at' 0xFE #v[0, 0, 0, 0, 0, 0, 0, 0x74] 0 [0x01])).Inv ∧
    (takeFault (.outOfRange .stackPush) (sp 0)).Inv ∧ (takeFault (.outOfRange .stackPop) (sp 0x74)).Inv :=
  ⟨⟨Config.core_legal, by decide, rfl, rfl, 1, rfl, rfl⟩, ⟨Config.core_legal, by decide, by decide, .inl rfl⟩, ⟨Config.core_legal, by decide, rfl, by decide⟩, ⟨Config.core_legal, by decide, rfl⟩,
    ⟨Config.core_legal, by decide, Nat.le_refl _⟩⟩
theorem witness_StepKeepsInvariant_illegal :
    (takeFault (.unsupportedInstruction 0) State.reset).Inv ∧
    (takeFault (.unsupportedOperation 0xA4) (at' 0x10 #v[0, 0, 0, 0, 0, 0, 0, 0x74] 0 [0xA4])).Inv :=
  ⟨⟨Config.core_legal, by decide, rfl, rfl, fun m => by cases m <;> decide⟩, ⟨Config.core_legal, by decide, rfl, rfl, fun m => by cases m <;> decide⟩⟩

theorem witness_DecodeOfEncodeIsTheInstruction :
    Config.core.Legal ∧
    (encode Config.core.opc .hlt ++ [7, 8, 9]).take 3 = [0x01, 7, 8] ∧
    (encode Config.core.opc (.prn 255) ++ [7, 8]).take 3 = [0x47, 255, 7] ∧
    (encode Config.core.opc (.ldi 255 254) ++ []).take 3 = [0x82, 255, 254] :=
  ⟨Config.core_legal, rfl, rfl, rfl⟩
theorem witness_EncodeOfDecodeIsTheFetchedBytes :
    Config.core.Legal ∧ decode Config.core.opc 0x47 255 0 = .ok (.prn 255) := ⟨Config.core_legal, rfl⟩
theorem witness_DecodeIsExactMatchOfTheOpcode :
    Config.core.Legal ∧ Config.core.opc .ldi = 0x82 ∧ (∀ m, Config.core.opc m ≠ 0x00#8) ∧
    (∀ m, Config.core.opc m ≠ 0xA4#8) :=
  ⟨Config.core_legal, rfl, fun m => by cases m <;> decide, fun m => by cases m <;> decide⟩

theorem witness_MemoryReadsTheByteLastWritten : 255 < 256 ∧ 256 ≤ 256 := by decide
theorem witness_DivideFloorsAndFaultsOnZero :
    (sp 0x74).reg 1 ≠ 0#8 ∧ (sp 0x74).reg 5 = 0#8 ∧ 8 ≤ (8#8).toNat ∧ 8 ≤ (255#8).toNat := by decide
theorem witness_AluReportsTheFirstIllegalRegister :
    8 ≤ (8#8).toNat ∧ Instr.dec 8 ∈ [Instr.inc 8, .dec 8] ∧ 8 ≤ (255#8).toNat := by decide
theorem witness_LoadImmediateWritesTheLiteral :
    (sp 0x74).env.config.Legal ∧ (sp 0x74).status = .running ∧ 8 ≤ (8#8).toNat :=
  ⟨Config.core_legal, by decide, by decide⟩
theorem witness_LoadReadsThroughTheAddressRegister : 8 ≤ (8#8).toNat ∧ 8 ≤ (255#8).toNat := by decide
theorem witness_StoreWritesThroughTheAddressRegister : 8 ≤ (8#8).toNat ∧ 8 ≤ (255#8).toNat := by decide
theorem witness_PrintRegisterEmitsOneDecimal : (sp 0x74).env.config.Legal ∧ 8 ≤ (8#8).toNat :=
  ⟨Config.core_legal, by decide⟩
theorem witness_PrintAlphaEmitsOneCharacter : 8 ≤ (8#8).toNat := by decide

theorem witness_PushStoresBelowTheStackPointer :
    (sp 1).reg SP ≠ 0#8 ∧ (sp 255).reg SP ≠ 0#8 ∧ (sp 0).reg SP = 0#8 ∧ 8 ≤ (8#8).toNat := by decide
theorem witness_PopLoadsFromTheStackPointer :
    ((sp 0x73).reg SP).toNat < (sp 0x73).env.config.spInit.toNat ∧ (sp 0x74).env.config.spInit.toNat ≤ ((sp 0x74).reg SP).toNat ∧
    (7 : Fin 8) = SP ∧ (6 : Fin 8) ≠ SP ∧ 8 ≤ (8#8).toNat := by decide
theorem witness_PushThenPopCopiesTheRegister :
    (0 : Fin 8) ≠ SP ∧ (6 : Fin 8) ≠ SP ∧ 0 < ((sp 1).reg SP).toNat ∧
    ((sp 0x74).reg SP).toNat ≤ (sp 0x74).env.config.spInit.toNat ∧
    (∃ t, exec (.push (regOp 0)) (sp 1) = .next t) ∧ ∃ t, exec (.push (regOp 0)) (sp 0x74) = .next t :=
  ⟨by decide, by decide, by decide, by decide, ⟨_, rfl⟩, _, rfl⟩
theorem witness_PushesComeBackInReverse :
    ([9, 8] : List Byte).length ≤ ((sp 2).reg SP).toNat ∧ ((sp 2).reg SP).toNat ≤ (sp 2).env.config.spInit.toNat ∧
    (List.replicate 0x74 (1 : Byte)).length ≤ ((sp 0x74).reg SP).toNat ∧
    ((sp 0x74).reg SP).toNat ≤ (sp 0x74).env.config.spInit.toNat := by decide

theorem witness_CallPushesTheReturnAddress :
    (sp 1).reg SP ≠ 0#8 ∧ (sp 0).reg SP = 0#8 ∧ 8 ≤ (8#8).toNat := by decide
theorem witness_ReturnPopsTheTarget :
    ((sp 0x73).reg SP).toNat < (sp 0x73).env.config.spInit.toNat ∧ (sp 0x74).env.config.spInit.toNat ≤ ((sp 0x74).reg SP).toNat := by decide
theorem witness_ReturnGoesToTheInstructionAfterTheCall :
    0 < ((sp 0x74).reg SP).toNat ∧ ((sp 0x74).reg SP).toNat ≤ (sp 0x74).env.config.spInit.toNat ∧
    ∃ t, exec (.call (regOp 1)) (sp 0x74) = .next t ∧ (setPc 9 t).env.config = (sp 0x74).env.config ∧
      (setPc 9 t).reg SP = t.reg SP ∧ (setPc 9 t).mem.read (t.reg SP).toNat = t.mem.read (t.reg SP).toNat :=
  ⟨by decide, by decide, _, rfl, rfl, rfl, rfl⟩
theorem witness_JumpGoesToTheRegister : 8 ≤ (8#8).toNat := by decide
theorem witness_ConditionalJumpsTestTheEqualFlag :
    flagE (setFl 1 (sp 0)).fl = true ∧ flagE (setFl 6 (sp 0)).fl = false ∧ 8 ≤ (8#8).toNat := by decide
theorem witness_HaltStopsTheMachine : (sp 9).env.config.Legal := Config.core_legal
theorem witness_InterruptReturnLoadsTheFrame :
    ((sp 0x6B).reg SP).toNat + 9 ≤ (sp 0x6B).env.config.spInit.toNat ∧ ((sp 0).reg SP).toNat + 9 ≤ (sp 0).env.config.spInit.toNat ∧
    (6 : Fin 8) ≠ SP := by decide
theorem witness_InterruptReturnFaultsPartWay :
    (sp 0x6C).env.config.spInit.toNat < ((sp 0x6C).reg SP).toNat + 9 ∧ (sp 0x74).env.config.spInit.toNat < ((sp 0x74).reg SP).toNat + 9 ∧
    (sp 0xFF).env.config.spInit.toNat < ((sp 0xFF).reg SP).toNat + 9 := by decide

/-- A running state with line 2 pending and enabled and a handler at 0x40. -/
def line2 (stack : Byte) : State :=
  { at' 0x10 #v[1, 2, 3, 4, 5, 4, 4, stack] 0 [0x01] with mem := [(0x10, 1), (0x40, 1), (0xFA, 0x40)] }

theorem witness_ControllerServicesTheLowestEnabledLine :
    (latchKey (sp 9).env.config (currentInput (sp 9)).key (latchTimer (currentInput (sp 9)).tick (sampled (sp 9))) =
        .ok () (sampled (sp 9)) ∧
      ∀ i : Fin 8, ¬(((sampled (sp 9)).reg IS).getLsbD i = true ∧ ((sampled (sp 9)).reg IM).getLsbD i = true)) ∧
    (latchKey (line2 9).env.config (currentInput (line2 9)).key
        (latchTimer (currentInput (line2 9)).tick (sampled (line2 9))) = .ok () (sampled (line2 9)) ∧
      ((line2 9).reg IS).getLsbD (2 : Fin 8) = true ∧ ((line2 9).reg IM).getLsbD (2 : Fin 8) = true ∧
      ∀ j : Fin 8, j < 2 → ¬(((line2 9).reg IS).getLsbD j = true ∧ ((line2 9).reg IM).getLsbD j = true)) :=
  ⟨⟨rfl, by decide⟩, rfl, by decide, by decide, by decide⟩
theorem witness_EntrySavesTheContext :
    (line2 9).env.config.Legal ∧ 9 ≤ ((line2 9).reg SP).toNat ∧ 9 ≤ ((line2 0x74).reg SP).toNat ∧ 9 ≤ ((line2 255).reg SP).toNat :=
  ⟨Config.core_legal, by decide, by decide, by decide⟩
theorem witness_EntryFaultsWhenTheStackRunsOut :
    ((line2 8).reg SP).toNat < 9 ∧ ((line2 0).reg SP).toNat < 9 ∧ 9 - ((line2 8).reg SP).toNat ≤ (1 : Fin 9).val := by decide
theorem witness_InterruptReturnReversesEntry :
    9 ≤ ((line2 9).reg SP).toNat ∧ ((line2 0x74).reg SP).toNat ≤ (line2 0x74).env.config.spInit.toNat ∧
    (∃ t, enter (line2 9).env.config 2 (line2 9) = .ok () t) ∧
    ∃ t v : State, enter (line2 0x74).env.config 2 (line2 0x74) = .ok () t ∧ v.env.config = (line2 0x74).env.config ∧
      v.reg SP = t.reg SP ∧ v.pc ≠ t.pc ∧
      ∀ a, ((line2 0x74).reg SP).toNat - 9 ≤ a → a < ((line2 0x74).reg SP).toNat → v.mem.read a = t.mem.read a :=
  ⟨by decide, by decide, ⟨_, rfl⟩, _, setPc 0x42 (enter (line2 0x74).env.config 2 (line2 0x74)).state,
    rfl, rfl, rfl, by decide, fun _ _ _ => rfl⟩
/-- A state with bits pending in x[6]. -/
def setReg6 (v : Byte) : State := at' 0x10 #v[0, 0, 0, 0, 0, 0, v, 9] 0 [0x01]

theorem witness_HardwareWritesOnlyPendingAndStackPointer :
    2 ≤ 2 ∧ ((pollInterrupts (setReg6 0x24)).state.reg IS).getLsbD 2 = true := by decide

theorem witness_StepRunsTheDecodedInstruction :
    (∃ t, (at' 0xFD #v[0, 0, 0, 0, 0, 0, 0, 0x74] 0 [0x82, 0, 9]).status = .running ∧
      pollInterrupts (at' 0xFD #v[0, 0, 0, 0, 0, 0, 0, 0x74] 0 [0x82, 0, 9]) = .ok () t ∧ t.pc.toNat ≤ 253 ∧
      decode (at' 0xFD #v[0, 0, 0, 0, 0, 0, 0, 0x74] 0 [0x82, 0, 9]).env.config.opc (t.mem.read t.pc.toNat)
        (t.mem.read (t.pc.toNat + 1)) (t.mem.read (t.pc.toNat + 2)) = .ok (.ldi 0 9)) ∧
    currentInput (sp 9) = quietInput ∧ serviceable (sp 9) = 0#8 :=
  ⟨⟨_, rfl, rfl, by decide, rfl⟩, by decide, by decide⟩
theorem witness_StepRunsTheDecodedInstruction_interrupt :
    ∃ t, (line2 0x74).status = .running ∧ pollInterrupts (line2 0x74) = .ok () t ∧ t.pc.toNat ≤ 253 ∧
      decode (line2 0x74).env.config.opc (t.mem.read t.pc.toNat) (t.mem.read (t.pc.toNat + 1))
        (t.mem.read (t.pc.toNat + 2)) = .ok .hlt :=
  ⟨_, rfl, rfl, by decide, rfl⟩
theorem witness_StepIsTotalAndAStoppedMachineStays :
    (halt (sp 9)).status ≠ .running ∧ (takeFault (.outOfRange .stackPush) (sp 0)).status ≠ .running := by decide
theorem witness_FaultsBeforeExecutionStopTheCycle :
    (∃ f t, (line2 8).status = .running ∧ pollInterrupts (line2 8) = .raised f t) ∧
    (∃ t, pollInterrupts (at' 0xFE #v[0, 0, 0, 0, 0, 0, 0, 0x74] 0 [1]) = .ok () t ∧ 254 ≤ t.pc.toNat) ∧
    (∃ t, pollInterrupts (at' 0 #v[0, 0, 0, 0, 0, 0, 0, 0x74] 0 []) = .ok () t ∧ t.pc.toNat ≤ 253 ∧
      ∀ m, (sp 9).env.config.opc m ≠ t.mem.read t.pc.toNat) ∧
    ∃ t, pollInterrupts (at' 0xFD #v[0, 0, 0, 0, 0, 0, 0, 0x74] 0 [0xA4]) = .ok () t ∧ t.pc.toNat ≤ 253 ∧
      ∀ m, (sp 9).env.config.opc m ≠ t.mem.read t.pc.toNat :=
  ⟨⟨_, _, rfl, rfl⟩, ⟨_, rfl, by decide⟩, ⟨_, rfl, by decide, fun m => by cases m <;> decide⟩,
    _, rfl, by decide, fun m => by cases m <;> decide⟩

/-- A state whose next cycle runs an instruction without a fault. -/
def RunsCleanly (s : State) (i : Instr) : Prop :=
  s.env.config.Legal ∧ s.status = .running ∧ ∃ op t u, frontEnd s = .ok (op, i) t ∧ step s = .next u ∧ u.isFaulted = false

theorem witness_PcAfterACycleFollowsTheTable :
    RunsCleanly (at' 0x10 #v[1, 2, 3, 0, 0, 0, 0, 9] 0 [0x54, 1]) (.jmp 1) ∧
    RunsCleanly (at' 0x10 #v[1, 2, 3, 0, 0, 0, 0, 9] 1 [0x55, 1]) (.jeq 1) ∧
    RunsCleanly (at' 0x10 #v[1, 2, 3, 0, 0, 0, 0, 9] 0 [0x55, 9]) (.jeq 9) ∧
    RunsCleanly (at' 0x10 #v[1, 2, 3, 0, 0, 0, 0, 9] 1 [0x56, 9]) (.jne 9) ∧
    RunsCleanly (at' 0x10 #v[1, 2, 3, 0, 0, 0, 0, 9] 0 [0x56, 1]) (.jne 1) ∧
    RunsCleanly (at' 0x10 #v[1, 2, 3, 0, 0, 0, 0, 9] 0 [0x50, 1]) (.call 1) ∧
    RunsCleanly (at' 0x10 #v[1, 2, 3, 0, 0, 0, 0, 9] 0 [0x50, 7]) (.call 7) ∧
    RunsCleanly (at' 0x10 #v[1, 2, 3, 0, 0, 0, 0, 9] 0 [0x11]) .ret ∧
    RunsCleanly (at' 0x10 #v[1, 2, 3, 0, 0, 0, 0, 0x6B] 0 [0x13]) .iret ∧
    RunsCleanly (at' 0xFD #v[1, 2, 3, 0, 0, 0, 0, 9] 0 [0x01]) .hlt ∧
    RunsCleanly (at' 0xFD #v[1, 2, 3, 0, 0, 0, 0, 9] 0 [0x82, 0, 9]) (.ldi 0 9) := by
  refine ⟨?_, ?_, ?_, ?_, ?_, ?_, ?_, ?_, ?_, ?_, ?_⟩ <;> exact ⟨Config.core_legal, rfl, _, _, _, rfl, rfl, rfl⟩

theorem witness_FlagsChangeOnlyByCompareAndReturn :
    ∃ t, step (at' 0x10 #v[3, 5, 0, 0, 0, 0, 0, 9] 0 [0xA7, 0, 1]) = .next t ∧
      t.fl ≠ (at' 0x10 #v[3, 5, 0, 0, 0, 0, 0, 9] 0 [0xA7, 0, 1]).fl :=
  ⟨_, rfl, by decide⟩
theorem witness_OnlyConditionalJumpsReadTheFlags :
    (∃ t, (sp 9).status = .running ∧ exec (.cmp 0 1) (sp 9) = .next t ∧ ∀ a, Instr.cmp 0 1 ≠ .jeq a ∧ Instr.cmp 0 1 ≠ .jne a) ∧
    (∃ t, exec (.jeq 0) (setFl 1 (sp 9)) = .next t ∧ flagE 7#3 = flagE (setFl 1 (sp 9)).fl) ∧
    ∃ t, exec .iret (sp 0x6B) = .next t ∧ ((sp 0x6B).reg SP).toNat + 9 ≤ (sp 0x6B).env.config.spInit.toNat :=
  ⟨⟨_, rfl, rfl, fun _ => ⟨nofun, nofun⟩⟩, ⟨_, rfl, by decide⟩, _, rfl, by decide⟩
theorem witness_ConsoleOnlyGrows : ∃ t, step (at' 0x10 #v[65, 0, 0, 0, 0, 0, 0, 9] 0 [0x48, 0]) = .next t := ⟨_, rfl⟩
theorem witness_EachRunningCycleTakesOneInput :
    (∃ t, step (withInputs [⟨true, some 65⟩] (sp 9)) = .next t ∧ (sp 9).status = .running) ∧
    ∃ t, step (halt (sp 9)) = .next t ∧ (halt (sp 9)).status ≠ .running :=
  ⟨⟨_, rfl, rfl⟩, _, rfl, by decide⟩
theorem witness_InstructionsKeepWhatTheyDoNotWrite :
    ∃ t, exec (.st 0 1) (sp 9) = .next t ∧ regOp 0 ∉ (Instr.st 0 1).destinations ∧ (Instr.st 0 1).writesFlags = false ∧
      (Instr.st 0 1).storeAddress (sp 9) ≠ some 2 ∧ (Instr.st 0 1).emits = false :=
  ⟨_, rfl, by decide, rfl, by decide, rfl⟩
theorem witness_FaultingInstructionsChangeOnlyTheStatus :
    ∃ t, Instr.ret ≠ .iret ∧ (sp 0x74).status = .running ∧ exec .ret (sp 0x74) = .next t ∧
      t.status = .faulted (.outOfRange .stackPop) :=
  ⟨_, by decide, rfl, rfl, rfl⟩
theorem witness_FaultKindsFollowTheCauseTable :
    (∃ t, (sp 9).status = .running ∧ exec (.div 0 5) (sp 9) = .next t ∧ t.status = .faulted (.divisionByZero 0x10)) ∧
    (∃ t, exec (.inc 8) (sp 9) = .next t ∧ t.status = .faulted (.outOfRange (.reg 8))) ∧
    (∃ t, exec (.push 0) (sp 0) = .next t ∧ t.status = .faulted (.outOfRange .stackPush)) ∧
    ∃ t, exec .iret (sp 0x74) = .next t ∧ t.status = .faulted (.outOfRange .stackPop) :=
  ⟨⟨_, rfl, rfl, rfl⟩, ⟨_, rfl, rfl⟩, ⟨_, rfl, rfl⟩, _, rfl, rfl⟩
theorem witness_ConsoleDoesNotInfluenceTheMachine :
    ∃ t, step (at' 0x10 #v[65, 0, 0, 0, 0, 0, 0, 9] 0 [0x48, 0]) = .next t := ⟨_, rfl⟩
theorem witness_LaterInputsDoNotInfluenceACycle :
    ∃ t, (withInputs [⟨true, none⟩, ⟨false, some 1⟩] (sp 9)).status = .running ∧
      (withInputs [⟨true, none⟩, ⟨false, some 1⟩] (sp 9)).env.inputs = ⟨true, none⟩ :: [⟨false, some 1⟩] ∧
      step (withInputs [⟨true, none⟩, ⟨false, some 1⟩] (sp 9)) = .next t :=
  ⟨_, rfl, rfl, rfl⟩
theorem witness_ConfigurationNeverChanges :
    (∃ t, step (State.boot otherConfig [0x65, 0] [⟨true, some 9⟩]) = .next t) ∧ ∃ t, step (halt (sp 9)) = .next t :=
  ⟨⟨_, rfl⟩, _, rfl⟩
theorem witness_StepIsTheStepOfTheSpec :
    (sp 9).status = .running ∧ State.reset.status = .running ∧ (halt (sp 9)).status ≠ .running ∧
    sp 9 ≠ withInputs [⟨true, some 1⟩] ((sp 9).withConfig otherConfig) ∧
    ((sp 9).withConfig otherConfig).machine =
      ((withInputs [⟨true, some 1⟩] ((sp 9).withConfig otherConfig)).withConfig otherConfig).machine :=
  ⟨rfl, rfl, by decide, by decide, rfl⟩
theorem witness_EveryRunKeepsTheInvariant : (State.boot otherConfig [0x82, 0, 9] []).Inv ∧ (sp 9).Inv :=
  ⟨⟨other_legal, by decide, trivial⟩, Config.core_legal, by decide, trivial⟩
theorem witness_EveryChoiceOfInputsIsARun :
    (withInputs [⟨true, none⟩, ⟨true, some 1⟩, quietInput] (sp 9)).env.inputs =
      (List.range 2).map (fun k => ⟨true, if k = 1 then some 1 else none⟩) ++ [quietInput] ∧
    State.reset.env.inputs = (List.range 0).map (fun _ => quietInput) ++ [] :=
  ⟨rfl, rfl⟩
theorem witness_StoredByteIsFetchedNext :
    ((at' 0x10 #v[253, 1, 0, 0, 0, 0, 0, 9] 0 []).reg 0).toNat ≤ 253 ∧
    ∃ t, exec (.st (regOp 0) (regOp 1)) (at' 0x10 #v[253, 1, 0, 0, 0, 0, 0, 9] 0 []) = .next t :=
  ⟨by decide, _, rfl⟩
theorem witness_WithFetchWordRunsTheWord :
    State.reset.status = .running ∧ State.reset.env.inputs.headD quietInput = quietInput ∧
    State.reset.env.config.opc = Config.core.opc ∧ serviceable State.reset = 0#8 ∧ State.reset.pc.toNat ≤ 253 ∧
    (at' 0xFD #v[0, 0, 0, 0, 0, 0, 0, 9] 0 []).env.inputs.headD quietInput = quietInput ∧
    (at' 0xFD #v[0, 0, 0, 0, 0, 0, 0, 9] 0 []).pc.toNat ≤ 253 ∧ decodeTableWord 24 0x0A0082 = some (.ldi 0 10) :=
  ⟨rfl, rfl, rfl, by decide, by decide, rfl, by decide, by decide⟩
/-- The host's question, on one word: laid at reset, `LDI R0, 10` is what the next step runs. -/
theorem test_with_fetch_word : (afterStep (State.reset.withFetchWord 24 0x0A0082)).reg 0 = 10 := by decide
/-- With an interrupt taken in the same cycle the word lies at the handler's address (R111). -/
theorem test_with_fetch_word_interrupt : (afterStep ((line2 0x74).withFetchWord 24 0x0A0082)).reg 0 = 10 := by decide

end Sys2Proof.Tests
end

section
/-! SUPPORT. The flags `CMP` leaves (10_state.md R29, 41_alu.md R146): each bit read back from a packed flag register
(a check of its eight values), the one flag a comparison sets, and the statement about `CMP` built from them. -/

namespace Sys2Proof.Machine

@[simp] theorem flagE_packFlags (l g e : Bool) : flagE (packFlags l g e) = e := by
  decide +revert

@[simp] theorem flagG_packFlags (l g e : Bool) : flagG (packFlags l g e) = g := by
  decide +revert

@[simp] theorem flagL_packFlags (l g e : Bool) : flagL (packFlags l g e) = l := by
  decide +revert

theorem flagE_compareFlags (p q : Byte) : flagE (compareFlags p q) = true ↔ p.toNat = q.toNat := by
  simp [compareFlags]

theorem flagG_compareFlags (p q : Byte) : flagG (compareFlags p q) = true ↔ p.toNat > q.toNat := by
  simp [compareFlags]

theorem flagL_compareFlags (p q : Byte) : flagL (compareFlags p q) = true ↔ p.toNat < q.toNat := by
  simp [compareFlags]

/-- Exactly one flag is set (R146), by trichotomy of the naturals. -/
theorem compareFlags_one_hot (p q : Byte) :
    compareFlags p q = 1#3 ∨ compareFlags p q = 2#3 ∨ compareFlags p q = 4#3 := by
  obtain hlt | heq | hgt := lt_trichotomy p.toNat q.toNat
  · have h : compareFlags p q = packFlags true false false := by
      simp [compareFlags, hlt, hlt.ne, hlt.not_gt]
    exact .inr (.inr h)
  · have h : compareFlags p q = packFlags false false true := by
      simp [compareFlags, heq]
    exact .inl h
  · have h : compareFlags p q = packFlags false true false := by
      simp [compareFlags, hgt, hgt.ne', hgt.not_gt]
    exact .inr (.inl h)

/-- R146: with legal operands `CMP` writes `FL` and does nothing else. -/
theorem exec_cmp_regOp (r q : Fin 8) (s : State) :
    exec (.cmp (regOp r) (regOp q)) s = .next (setFl (compareFlags (s.reg r) (s.reg q)) s) := by
  simp [exec, execCmp]

/-- Settles O13: `FL` becomes `compareFlags` of the two register values, and `setFl` leaves the rest as it was. -/
theorem compareWritesExactlyOneFlag : Obligations.CompareWritesExactlyOneFlag := by
  intro s r q
  refine ⟨_, exec_cmp_regOp r q s, flagE_compareFlags _ _, flagG_compareFlags _ _, flagL_compareFlags _ _,
    compareFlags_one_hot _ _, ?frame⟩
  case frame => simp [KeepsRegs, KeepsMem, KeepsRun]

end Sys2Proof.Machine
end

section
/-! SUPPORT. The two memory operations (20_memory.md R50, R52): the rules for `memWrite`, which stand beside
`memRead_inside` and `memRead_outside`, the frame of a store, and the statement about both operations. -/

namespace Sys2Proof.Machine

theorem memWrite_inside {a : Nat} (h : a < memSize) (v : Byte) (s : State) :
    memWrite a v s = .ok () (s.setMem (s.mem.write a v)) := by
  simp [memWrite, h]

theorem memWrite_outside {a : Nat} (h : memSize ≤ a) (v : Byte) (s : State) :
    memWrite a v s = .raised (.outOfRange (.mem a)) s := by
  simp [memWrite, Nat.not_lt.mpr h]

/-- R50: a read after a store to the same address answers the byte stored. -/
theorem memRead_setMem_write_same {a : Nat} (h : a < memSize) (v : Byte) (s : State) :
    memRead a (s.setMem (s.mem.write a v)) = .ok v (s.setMem (s.mem.write a v)) := by
  simp [memRead_inside h]

/-- R50: a store changes no byte but the one at its address. -/
theorem keepsMem_setMem_write (a : Nat) (v : Byte) (s : State) :
    KeepsMem [a] s (s.setMem (s.mem.write a v)) := by
  intro b hb
  have hne : b ≠ a := List.ne_of_not_mem_cons hb
  simp [hne]

/-- Settles O8: the rules of the two operations on both sides of `memSize`, and the frame of a store; what is no memory
is untouched by `setMem`. -/
theorem memoryReadsTheByteLastWritten : Obligations.MemoryReadsTheByteLastWritten := by
  intro s a v
  constructor
  case left =>
    intro h
    exact ⟨memRead_inside h s, _, memWrite_inside h v s, memRead_setMem_write_same h v s, keepsMem_setMem_write a v s,
      fun _ _ => rfl, rfl, rfl, rfl, rfl, rfl⟩
  case right =>
    intro h
    exact ⟨memRead_outside h s, memWrite_outside h v s⟩

end Sys2Proof.Machine
end

section
/-! SUPPORT. The decoder's two answers (30_encoding.md R85): a table search finds the one instruction with the opcode
byte asked for, bit 5 of a legal opcode selects the table its instruction is in, and the statement about unmatched bytes
built from them. -/

namespace Sys2Proof

/-- The two tables of R86 share the instructions out between them. -/
theorem mem_mainTable_iff (m : Mnemonic) : m ∈ mainTable ↔ m ∉ aluTable := by
  cases m <;> decide

theorem find?_opcode_of_mem {opc : Mnemonic → Byte} (hinj : ∀ m n, opc m = opc n → m = n) {table : List Mnemonic}
    {m : Mnemonic} (hm : m ∈ table) : table.find? (fun n => opc n == opc m) = some m := by
  obtain ⟨n, hn⟩ : ∃ n, table.find? (fun n => opc n == opc m) = some n :=
    Option.isSome_iff_exists.mp (List.find?_isSome.mpr ⟨m, hm, by simp⟩)
  have hnm : n = m := hinj n m (by simpa using List.find?_some hn)
  rw [hn, hnm]

theorem find?_opcode_of_unmatched {opc : Mnemonic → Byte} {op : Byte} (h : ∀ m, opc m ≠ op) (table : List Mnemonic) :
    table.find? (fun n => opc n == op) = none := by
  simp [h]

/-- R85, R87: under a legal assignment bit 5 routes an instruction's opcode to the table that holds the instruction. -/
theorem decodeOpcode_opc {opc : Mnemonic → Byte} (hopc : OpcLegal opc) (m : Mnemonic) :
    decodeOpcode opc (opc m) = .ok m := by
  have hbit := hopc.alu m
  by_cases halu : m ∈ aluTable
  · simp [decodeOpcode, hbit, halu, find?_opcode_of_mem hopc.injective halu]
  · have hmain : m ∈ mainTable := (mem_mainTable_iff m).mpr halu
    simp [decodeOpcode, hbit, halu, find?_opcode_of_mem hopc.injective hmain]

/-- R85, R88: an opcode byte that is no instruction's is in neither table, so bit 5 only selects the name. -/
theorem decodeOpcode_unmatched {opc : Mnemonic → Byte} {op : Byte} (h : ∀ m, opc m ≠ op) :
    decodeOpcode opc op =
      .error (if opIsAlu op then .unsupportedOperation op else .unsupportedInstruction op) := by
  simp only [decodeOpcode, find?_opcode_of_unmatched h]
  split <;> rfl

theorem decode_of_decodeOpcode_ok {opc : Mnemonic → Byte} {op : Byte} {m : Mnemonic}
    (h : decodeOpcode opc op = .ok m) (a b : Byte) : decode opc op a b = .ok (m.withOperands a b) := by
  simp [decode, h]

theorem decode_of_decodeOpcode_error {opc : Mnemonic → Byte} {op : Byte} {e : DecodeError}
    (h : decodeOpcode opc op = .error e) (a b : Byte) : decode opc op a b = .error e := by
  simp [decode, h]

/-- Settles O6: `decode` answers as `decodeOpcode` does, which finds a matched byte's instruction in its table and an
unmatched byte in none. -/
theorem decodeIsExactMatchOfTheOpcode : Obligations.DecodeIsExactMatchOfTheOpcode := by
  intro c hc op a b
  constructor
  case left =>
    rintro m rfl
    exact decode_of_decodeOpcode_ok (decodeOpcode_opc hc.opcLegal m) a b
  case right =>
    intro h
    exact decode_of_decodeOpcode_error (decodeOpcode_unmatched h) a b

end Sys2Proof
end

section
/-! SUPPORT. The fixed-priority arbiter (60_exceptions.md R214, R215): its scan list is every line in increasing order, so
`arbiter` is the library's search for the least index, and Batteries' two lemmas about that search say what it answers. -/

namespace Sys2Proof.Machine

/-- R214: the arbiter scans every line, in increasing order. -/
theorem irqLines_eq_finRange : irqLines = List.finRange 8 := by
  decide

theorem arbiter_eq_find? (m : Byte) : arbiter m = Fin.find? fun i : Fin 8 => m.getLsbD i := by
  rw [arbiter, irqLines_eq_finRange, Fin.find?_eq_find?_finRange]

/-- R215: the lower index wins. -/
theorem arbiter_eq_some_iff (m : Byte) (i : Fin 8) :
    arbiter m = some i ↔ m.getLsbD i = true ∧ ∀ j : Fin 8, j < i → m.getLsbD j = false := by
  rw [arbiter_eq_find?, Fin.find?_eq_some_iff]

theorem byte_eq_zero_iff_lines_clear (m : Byte) : m = 0#8 ↔ ∀ i : Fin 8, m.getLsbD i = false := by
  constructor
  case mp =>
    rintro rfl i
    exact BitVec.getLsbD_zero
  case mpr =>
    intro h
    apply BitVec.eq_of_getLsbD_eq
    intro k hk
    rw [h ⟨k, hk⟩, BitVec.getLsbD_zero]

theorem arbiter_eq_none_iff (m : Byte) : arbiter m = none ↔ m = 0#8 := by
  rw [arbiter_eq_find?, Fin.find?_eq_none_iff, byte_eq_zero_iff_lines_clear]

/-- Settles O34: the two answers of the arbiter, each by its own rule. -/
theorem arbiterPicksTheLowestLine : Obligations.ArbiterPicksTheLowestLine :=
  fun m => ⟨arbiter_eq_none_iff m, arbiter_eq_some_iff m⟩

end Sys2Proof.Machine
end

section
/-! SUPPORT. Decoder and encoder undo each other (30_encoding.md R80, R85, R90): what a decoded byte says of the opcode
assignment, how the operand bytes of a triple and of an instruction correspond, and the statements about round trips. -/

namespace Sys2Proof

/-! ## Operand bytes of a triple and of an instruction (R83) -/

@[simp] theorem Mnemonic.mnemonic_withOperands (m : Mnemonic) (a b : Byte) : (m.withOperands a b).mnemonic = m := by
  cases m <;> rfl

/-- R80: an instruction takes as many operand bytes of the triple as its row says, the first ones. -/
theorem Mnemonic.operandBytes_withOperands (m : Mnemonic) (a b : Byte) :
    (m.withOperands a b).operandBytes = [a, b].take m.operands := by
  cases m <;> rfl

/-- An instruction is its mnemonic with any two bytes that begin with its operand bytes: the others are not looked at. -/
theorem Instr.withOperands_mnemonic {i : Instr} {rest : List Byte} {a b : Byte}
    (h : (i.operandBytes ++ rest).take 2 = [a, b]) : i.mnemonic.withOperands a b = i := by
  cases i with
  | hlt | ret | iret => rfl
  | inc | dec | not | push | pop | prn | pra | call | jmp | jeq | jne =>
    obtain ⟨rfl, -⟩ := List.cons.inj h
    rfl
  | add | sub | mul | div | cmp | and | or | xor | shl | shr | ldi | ld | st =>
    obtain ⟨rfl, hb⟩ := List.cons.inj h
    obtain ⟨rfl, -⟩ := List.cons.inj hb
    rfl

/-- R83: the operand bytes that are register indices are operand bytes. -/
theorem Instr.regOperands_subset_operandBytes (i : Instr) : i.regOperands ⊆ i.operandBytes := by
  cases i <;> simp [Instr.regOperands, Instr.operandBytes]

/-! ## What the decoder's answer says of the opcode byte (R85) -/

/-- R85: under a legal assignment a triple decodes exactly to the instruction whose opcode byte it begins with. -/
theorem decode_eq_ok_iff {opc : Mnemonic → Byte} (hopc : OpcLegal opc) {op a b : Byte} {i : Instr} :
    decode opc op a b = .ok i ↔ ∃ m, opc m = op ∧ m.withOperands a b = i := by
  constructor
  case mp =>
    intro h
    by_cases hm : ∃ m, opc m = op
    · obtain ⟨m, rfl⟩ := hm
      rw [decode_of_decodeOpcode_ok (decodeOpcode_opc hopc m)] at h
      exact ⟨m, rfl, Except.ok.inj h⟩
    · rw [decode_of_decodeOpcode_error (decodeOpcode_unmatched (not_exists.mp hm))] at h
      cases h
  case mpr =>
    rintro ⟨m, rfl, rfl⟩
    exact decode_of_decodeOpcode_ok (decodeOpcode_opc hopc m) a b

/-- R85, R88: under a legal assignment a rejected byte is no instruction's, and is rejected under the name bit 5 selects. -/
theorem decode_eq_error_iff {opc : Mnemonic → Byte} (hopc : OpcLegal opc) {op a b : Byte} {e : DecodeError} :
    decode opc op a b = .error e ↔ (∀ m, opc m ≠ op) ∧
      e = if opIsAlu op then .unsupportedOperation op else .unsupportedInstruction op := by
  by_cases hm : ∃ m, opc m = op
  · obtain ⟨m, rfl⟩ := hm
    simp [decode_of_decodeOpcode_ok (decodeOpcode_opc hopc m)]
  · have hne : ∀ m, opc m ≠ op := not_exists.mp hm
    rw [decode_of_decodeOpcode_error (decodeOpcode_unmatched hne), Except.error.injEq]
    exact ⟨fun h => ⟨hne, h.symm⟩, fun h => h.2.symm⟩

/-- Settles O4: the triple begins with the instruction's own opcode byte and goes on with its operand bytes. -/
theorem decodeOfEncodeIsTheInstruction : Obligations.DecodeOfEncodeIsTheInstruction := by
  intro c hc i rest op a b h
  obtain ⟨hop, hoperands⟩ := List.cons.inj h
  exact (decode_eq_ok_iff hc.opcLegal).mpr ⟨i.mnemonic, hop, Instr.withOperands_mnemonic hoperands⟩

/-- Settles O5: the decoded instruction has the triple's opcode, and its row's operand count is what bits 7:6 say. -/
theorem encodeOfDecodeIsTheFetchedBytes : Obligations.EncodeOfDecodeIsTheFetchedBytes := by
  intro c hc op a b i h
  obtain ⟨m, rfl, rfl⟩ := (decode_eq_ok_iff hc.opcLegal).mp h
  rw [encode, Mnemonic.mnemonic_withOperands, Mnemonic.operandBytes_withOperands, hc.opcLegal.operands, Nat.add_comm,
    List.take_succ_cons]

/-- Settles O7: each table word is the default opcode of a mnemonic, and the two rejected bytes are the opcode of none. -/
theorem tableWordsDecode : Obligations.TableWordsDecode := by
  intro a b
  have hok (m : Mnemonic) : decode Config.core.opc (Config.core.opc m) a b = .ok (m.withOperands a b) :=
    (decode_eq_ok_iff Config.core_legal.opcLegal).mpr ⟨m, rfl, rfl⟩
  have herror {op : Byte} (h : ∀ m, Config.core.opc m ≠ op) :=
    (decode_eq_error_iff (a := a) (b := b) Config.core_legal.opcLegal).mpr ⟨h, rfl⟩
  exact ⟨hok .add, hok .cmp, hok .not, hok .shr, hok .ldi, hok .st, hok .prn, hok .push, hok .call, hok .jne, hok .iret,
    hok .hlt, herror (by intro m; cases m <;> decide), herror (by intro m; cases m <;> decide)⟩

end Sys2Proof
end

section
/-! SUPPORT. Step 4 of a cycle (40_cycle.md R118, R121): what `advance` keeps, and the value it gives `PC`. -/

namespace Sys2Proof.Machine

/-- R110: step 4 writes `PC` only. -/
@[simp] theorem advance_fl (op : Byte) (s : State) : (advance op s).fl = s.fl := by
  obtain ⟨-, hfl, -⟩ := advance_keeps op s
  exact hfl

@[simp] theorem advance_mem (op : Byte) (s : State) : (advance op s).mem = s.mem := by
  obtain ⟨-, -, hmem, -⟩ := advance_keeps op s
  exact hmem

@[simp] theorem advance_status (op : Byte) (s : State) : (advance op s).status = s.status := by
  obtain ⟨-, -, -, hstatus, -⟩ := advance_keeps op s
  exact hstatus

@[simp] theorem advance_console (op : Byte) (s : State) : (advance op s).console = s.console := by
  obtain ⟨-, -, -, -, hconsole, -⟩ := advance_keeps op s
  exact hconsole

@[simp] theorem advance_env (op : Byte) (s : State) : (advance op s).env = s.env := by
  obtain ⟨-, -, -, -, -, henv⟩ := advance_keeps op s
  exact henv

/-- R9, R205: a fault suppresses step 4. -/
theorem advance_of_faulted {op : Byte} {f : Fault} {s : State} (h : s.status = .faulted f) : advance op s = s := by
  simp [advance, State.isFaulted, h]

theorem isFaulted_of_running {s : State} (h : s.status = .running) : s.isFaulted = false := by
  simp [State.isFaulted, h]

/-- R118: after an instruction that sets `PC` itself step 4 does nothing. -/
theorem advance_of_setter {opc : Mnemonic → Byte} (hopc : OpcLegal opc) {m : Mnemonic} (hm : m ∈ pcSetters) (s : State) :
    advance (opc m) s = s := by
  simp [advance, hopc.setsPc, hm]

/-- R118: after any other instruction step 4 adds its length to `PC`, unless it faulted. -/
theorem advance_of_not_setter {opc : Mnemonic → Byte} (hopc : OpcLegal opc) {m : Mnemonic} (hm : m ∉ pcSetters)
    {s : State} (hs : s.isFaulted = false) :
    advance (opc m) s = setPc (s.pc + BitVec.ofNat 8 (1 + m.operands)) s := by
  simp [advance, hopc.setsPc, hopc.operands, hm, hs]

/-- R121: step 4 after a `HLT` adds 1 to `PC`. -/
theorem advance_hlt {opc : Mnemonic → Byte} (hopc : OpcLegal opc) (s : State) :
    advance (opc .hlt) (halt s) = setPc (s.pc + 1#8) (halt s) :=
  advance_of_not_setter hopc (by decide) rfl

end Sys2Proof.Machine
end

section
/-! SUPPORT. The ALU family (41_alu.md): with legal operands each instruction is one register write, with an illegal one
it takes the fault of the first register it reads; and the statements about the family. -/

namespace Sys2Proof.Machine

/-! ## One register write, and its frame -/

theorem writesOnlyRegs_setReg (r : Fin 8) (v : Byte) (s : State) : WritesOnlyRegs [r] s (s.setReg r v) := by
  refine ⟨fun q hq => ?_, rfl, rfl, fun _ _ => rfl, rfl, rfl, rfl⟩
  have hne : q ≠ r := List.ne_of_not_mem_cons hq
  simp [hne]

/-- An instruction that amounts to one register write has the frame of that write and leaves the value in the register. -/
theorem exists_next_writesOnly {i : Instr} {s : State} {r : Fin 8} {v : Byte} (h : exec i s = .next (s.setReg r v)) :
    ∃ t, exec i s = .next t ∧ WritesOnlyRegs [r] s t ∧ t.reg r = v :=
  ⟨_, h, writesOnlyRegs_setReg r v s, by simp⟩

/-! ## Legal operands (R134 to R145) -/

section
variable (r q : Fin 8) (n : Byte) (s : State)

theorem exec_add_regOp : exec (.add (regOp r) (regOp q)) s = .next (s.setReg r (s.reg r + s.reg q)) :=
  congrArg Res.outcome (onTwoRegs_ok _ r q s)

theorem exec_sub_regOp : exec (.sub (regOp r) (regOp q)) s = .next (s.setReg r (s.reg r - s.reg q)) :=
  congrArg Res.outcome (onTwoRegs_ok _ r q s)

theorem exec_mul_regOp : exec (.mul (regOp r) (regOp q)) s = .next (s.setReg r (s.reg r * s.reg q)) :=
  congrArg Res.outcome (onTwoRegs_ok _ r q s)

theorem exec_and_regOp : exec (.and (regOp r) (regOp q)) s = .next (s.setReg r (s.reg r &&& s.reg q)) :=
  congrArg Res.outcome (onTwoRegs_ok _ r q s)

theorem exec_or_regOp : exec (.or (regOp r) (regOp q)) s = .next (s.setReg r (s.reg r ||| s.reg q)) :=
  congrArg Res.outcome (onTwoRegs_ok _ r q s)

theorem exec_xor_regOp : exec (.xor (regOp r) (regOp q)) s = .next (s.setReg r (s.reg r ^^^ s.reg q)) :=
  congrArg Res.outcome (onTwoRegs_ok _ r q s)

theorem exec_inc_regOp : exec (.inc (regOp r)) s = .next (s.setReg r (s.reg r + 1#8)) :=
  congrArg Res.outcome (onOneReg_ok _ r s)

theorem exec_dec_regOp : exec (.dec (regOp r)) s = .next (s.setReg r (s.reg r - 1#8)) :=
  congrArg Res.outcome (onOneReg_ok _ r s)

theorem exec_not_regOp : exec (.not (regOp r)) s = .next (s.setReg r (~~~s.reg r)) :=
  congrArg Res.outcome (onOneReg_ok _ r s)

theorem exec_shl_regOp : exec (.shl (regOp r) n) s = .next (s.setReg r (shiftLeft (s.reg r) n.toNat)) :=
  congrArg Res.outcome (onRegAndCount_ok _ r n s)

theorem exec_shr_regOp : exec (.shr (regOp r) n) s = .next (s.setReg r (shiftRight (s.reg r) n.toNat)) :=
  congrArg Res.outcome (onRegAndCount_ok _ r n s)

variable {r q s}

theorem exec_div_regOp (h : s.reg q ≠ 0#8) :
    exec (.div (regOp r) (regOp q)) s = .next (s.setReg r (quotient (s.reg r) (s.reg q))) := by
  simp [exec, execDiv, h]

theorem exec_div_zero (h : s.reg q = 0#8) :
    exec (.div (regOp r) (regOp q)) s = .next (takeFault (.divisionByZero s.pc) s) := by
  simp [exec, execDiv, h]

end

/-! ## Illegal operands (R133) -/

section
variable {a b : Byte} {s : State}

theorem outcome_onTwoRegs_highA (h : 8 ≤ a.toNat) (f : Byte → Byte → Byte) :
    (onTwoRegs f a b s).outcome = .next (takeFault (.outOfRange (.reg a)) s) :=
  congrArg Res.outcome (onTwoRegs_highA h f b s)

theorem outcome_onTwoRegs_highB (h : 8 ≤ b.toNat) (f : Byte → Byte → Byte) (r : Fin 8) :
    (onTwoRegs f (regOp r) b s).outcome = .next (takeFault (.outOfRange (.reg b)) s) :=
  congrArg Res.outcome (onTwoRegs_highB h f r s)

theorem outcome_onOneReg_high (h : 8 ≤ a.toNat) (f : Byte → Byte) :
    (onOneReg f a s).outcome = .next (takeFault (.outOfRange (.reg a)) s) :=
  congrArg Res.outcome (onOneReg_high h f s)

theorem outcome_onRegAndCount_high (h : 8 ≤ a.toNat) (f : Byte → Nat → Byte) :
    (onRegAndCount f a b s).outcome = .next (takeFault (.outOfRange (.reg a)) s) :=
  congrArg Res.outcome (onRegAndCount_high h f b s)

theorem exec_div_highA (h : 8 ≤ a.toNat) : exec (.div a b) s = .next (takeFault (.outOfRange (.reg a)) s) := by
  simp [exec, execDiv, readReg_high h]

theorem exec_div_highB (h : 8 ≤ b.toNat) (r : Fin 8) :
    exec (.div (regOp r) b) s = .next (takeFault (.outOfRange (.reg b)) s) := by
  simp [exec, execDiv, readReg_high h]

theorem exec_cmp_highA (h : 8 ≤ a.toNat) : exec (.cmp a b) s = .next (takeFault (.outOfRange (.reg a)) s) := by
  simp [exec, execCmp, readReg_high h]

theorem exec_cmp_highB (h : 8 ≤ b.toNat) (r : Fin 8) :
    exec (.cmp (regOp r) b) s = .next (takeFault (.outOfRange (.reg b)) s) := by
  simp [exec, execCmp, readReg_high h]

end

/-! ## The values as integers (R131, R132, R141 to R143) -/

theorem toNat_sub_eq_emod (p q : Byte) : ((p - q).toNat : Int) = (p.toNat - q.toNat : Int) % 256 := by
  have hp := p.isLt
  have hq := q.isLt
  rw [BitVec.toNat_sub]
  omega

theorem toNat_quotient (p q : Byte) : (quotient p q).toNat = p.toNat / q.toNat := by
  have hlt : p.toNat / q.toNat < 2 ^ 8 := lt_of_le_of_lt (Nat.div_le_self _ _) p.isLt
  rw [quotient, BitVec.toNat_ofNat, Nat.mod_eq_of_lt hlt]

theorem toNat_shiftLeft_eq (p : Byte) (n : Nat) : (shiftLeft p n).toNat = p.toNat * 2 ^ n % 256 := by
  rw [shiftLeft, BitVec.toNat_shiftLeft, Nat.shiftLeft_eq]

theorem toNat_shiftRight_eq (p : Byte) (n : Nat) : (shiftRight p n).toNat = p.toNat / 2 ^ n := by
  rw [shiftRight, BitVec.toNat_ushiftRight, Nat.shiftRight_eq_div_pow]

/-! ## The statements -/

/-- Settles O9: each is one register write, of a value that bit-vector arithmetic reduces modulo 256. -/
theorem arithmeticWrapsModulo256 : Obligations.ArithmeticWrapsModulo256 := by
  intro s r q
  refine ⟨?add, ?sub, ?mul, ?inc, ?dec⟩
  case add =>
    obtain ⟨t, ht, hframe, hv⟩ := exists_next_writesOnly (exec_add_regOp r q s)
    exact ⟨t, ht, hframe, by rw [hv, BitVec.toNat_add]⟩
  case sub =>
    obtain ⟨t, ht, hframe, hv⟩ := exists_next_writesOnly (exec_sub_regOp r q s)
    exact ⟨t, ht, hframe, by rw [hv, toNat_sub_eq_emod]⟩
  case mul =>
    obtain ⟨t, ht, hframe, hv⟩ := exists_next_writesOnly (exec_mul_regOp r q s)
    exact ⟨t, ht, hframe, by rw [hv, BitVec.toNat_mul]⟩
  case inc =>
    obtain ⟨t, ht, hframe, hv⟩ := exists_next_writesOnly (exec_inc_regOp r s)
    exact ⟨t, ht, hframe, by rw [hv, BitVec.toNat_add]; rfl⟩
  case dec =>
    obtain ⟨t, ht, hframe, hv⟩ := exists_next_writesOnly (exec_dec_regOp r s)
    exact ⟨t, ht, hframe, by rw [hv, toNat_sub_eq_emod]; rfl⟩

/-- Settles O10: the register checks come first, then the zero check, then the quotient. -/
theorem divideFloorsAndFaultsOnZero : Obligations.DivideFloorsAndFaultsOnZero := by
  intro s
  refine ⟨fun r q h0 => ?quotient, fun _ _ => exec_div_zero, fun _ _ => exec_div_highA, fun r _ hb => exec_div_highB hb r⟩
  case quotient =>
    obtain ⟨t, ht, hframe, hv⟩ := exists_next_writesOnly (exec_div_regOp (r := r) h0)
    exact ⟨t, ht, hframe, by rw [hv, toNat_quotient]⟩

/-- Settles O11: each is one register write, of a value the library's bit lemmas describe. -/
theorem bitwiseOperationsActBitByBit : Obligations.BitwiseOperationsActBitByBit := by
  intro s r q
  refine ⟨?and, ?or, ?xor, ?not⟩
  case and =>
    obtain ⟨t, ht, hframe, hv⟩ := exists_next_writesOnly (exec_and_regOp r q s)
    exact ⟨t, ht, hframe, fun k _ => by rw [hv, BitVec.getLsbD_and]⟩
  case or =>
    obtain ⟨t, ht, hframe, hv⟩ := exists_next_writesOnly (exec_or_regOp r q s)
    exact ⟨t, ht, hframe, fun k _ => by rw [hv, BitVec.getLsbD_or]⟩
  case xor =>
    obtain ⟨t, ht, hframe, hv⟩ := exists_next_writesOnly (exec_xor_regOp r q s)
    exact ⟨t, ht, hframe, fun k _ => by rw [hv, BitVec.getLsbD_xor]⟩
  case not =>
    obtain ⟨t, ht, hframe, hv⟩ := exists_next_writesOnly (exec_not_regOp r s)
    exact ⟨t, ht, hframe, by rw [hv, BitVec.toNat_not]⟩

/-- Settles O12: the count is the operand byte itself, and bits shifted past the ends are lost. -/
theorem shiftsUseTheLiteralCount : Obligations.ShiftsUseTheLiteralCount := by
  intro s r n
  constructor
  case left =>
    obtain ⟨t, ht, hframe, hv⟩ := exists_next_writesOnly (exec_shl_regOp r n s)
    exact ⟨t, ht, hframe, by rw [hv, toNat_shiftLeft_eq]⟩
  case right =>
    obtain ⟨t, ht, hframe, hv⟩ := exists_next_writesOnly (exec_shr_regOp r n s)
    exact ⟨t, ht, hframe, by rw [hv, toNat_shiftRight_eq]⟩

/-- Settles O14: operand A by the check of each operand form, operand B by that of the two-register form; `DIV` and `CMP`
have their own. -/
theorem aluReportsTheFirstIllegalRegister : Obligations.AluReportsTheFirstIllegalRegister := by
  intro s
  constructor
  case left =>
    intro a b ha
    have two (f) := outcome_onTwoRegs_highA (b := b) (s := s) ha f
    have one (f) := outcome_onOneReg_high (s := s) ha f
    have count (f) := outcome_onRegAndCount_high (b := b) (s := s) ha f
    simp only [List.forall_mem_cons]
    exact ⟨two _, two _, two _, exec_div_highA ha, two _, two _, two _, exec_cmp_highA ha, count _, count _, one _, one _,
      one _, nofun⟩
  case right =>
    intro r b hb
    have two (f) := outcome_onTwoRegs_highB (s := s) hb f r
    simp only [List.forall_mem_cons]
    exact ⟨two _, two _, two _, exec_div_highB hb r, two _, two _, two _, exec_cmp_highB hb r, nofun⟩

end Sys2Proof.Machine
end

section
/-! SUPPORT. Data movement and console (42_data_io.md): the rule of each instruction with legal and with illegal operands,
the console as text (10_state.md R40), and the statements. -/

namespace Sys2Proof.Machine

/-! ## The rule of each instruction -/

section
variable (r q : Fin 8) (imm : Byte) (s : State)

theorem exec_ldi_regOp : exec (.ldi (regOp r) imm) s = .next (s.setReg r imm) := by
  simp [exec, execLdi]

theorem exec_ld_regOp : exec (.ld (regOp r) (regOp q)) s = .next (s.setReg r (s.mem.read (s.reg q).toNat)) := by
  simp [exec, execLd, loadThrough_ok]

theorem exec_st_regOp :
    exec (.st (regOp r) (regOp q)) s = .next (s.setMem (s.mem.write (s.reg r).toNat (s.reg q))) := by
  simp [exec, execSt]

theorem exec_prn_regOp : exec (.prn (regOp r)) s = .next (emit (.dec (s.reg r)) s) := by
  simp [exec, execPrn]

theorem exec_pra_regOp : exec (.pra (regOp r)) s = .next (emit (.chr (s.reg r)) s) := by
  simp [exec, execPra]

end

section
variable {a b : Byte} {s : State}

theorem exec_ldi_high (h : 8 ≤ a.toNat) (imm : Byte) :
    exec (.ldi a imm) s = .next (takeFault (.outOfRange (.reg a)) s) := by
  simp [exec, execLdi, writeReg_high h]

theorem exec_ld_highB (h : 8 ≤ b.toNat) : exec (.ld a b) s = .next (takeFault (.outOfRange (.reg b)) s) := by
  simp [exec, execLd, loadThrough_high h]

theorem exec_ld_highA (h : 8 ≤ a.toNat) (q : Fin 8) :
    exec (.ld a (regOp q)) s = .next (takeFault (.outOfRange (.reg a)) s) := by
  simp [exec, execLd, loadThrough_ok, writeReg_high h]

theorem exec_st_highA (h : 8 ≤ a.toNat) : exec (.st a b) s = .next (takeFault (.outOfRange (.reg a)) s) := by
  simp [exec, execSt, readReg_high h]

theorem exec_st_highB (h : 8 ≤ b.toNat) (r : Fin 8) :
    exec (.st (regOp r) b) s = .next (takeFault (.outOfRange (.reg b)) s) := by
  simp [exec, execSt, readReg_high h]

theorem exec_prn_high (h : 8 ≤ a.toNat) : exec (.prn a) s = .next (takeFault (.outOfRange (.reg a)) s) := by
  simp [exec, execPrn, readReg_high h]

theorem exec_pra_high (h : 8 ≤ a.toNat) : exec (.pra a) s = .next (takeFault (.outOfRange (.reg a)) s) := by
  simp [exec, execPra, readReg_high h]

end

/-! ## Loads and stores -/

/-- Settles O15: one register write; the opcode is the source's own value, and the row has two operand bytes. -/
theorem loadImmediateWritesTheLiteral : Obligations.LoadImmediateWritesTheLiteral := by
  intro s imm
  refine ⟨fun hc a => ?encoding, fun r => ?write, fun a ha => exec_ldi_high ha imm⟩
  case encoding => exact congrArg (· :: [a, imm]) hc.opcLegal.ldi
  case write =>
    refine ⟨_, exec_ldi_regOp r imm s, writesOnlyRegs_setReg r imm s, by simp, fun hs => ?_⟩
    have hrun : (s.setReg r imm).isFaulted = false := isFaulted_of_running hs
    have hadv : advance 0x82#8 (s.setReg r imm) = setPc (s.pc + 3#8) (s.setReg r imm) :=
      advance_of_not_setter (m := .ldi) defaultOpc_legal (by decide) hrun
    rw [hadv, setPc_pc, BitVec.toNat_add]
    rfl

/-- Settles O16: the address register is read first, then the destination is written. -/
theorem loadReadsThroughTheAddressRegister : Obligations.LoadReadsThroughTheAddressRegister := by
  intro s
  exact ⟨fun r q => exists_next_writesOnly (exec_ld_regOp r q s), fun _ _ hb => exec_ld_highB hb,
    fun _ q ha => exec_ld_highA ha q⟩

/-- Settles O17: `ST` is one store, with the frame of a store. -/
theorem storeWritesThroughTheAddressRegister : Obligations.StoreWritesThroughTheAddressRegister := by
  intro s
  refine ⟨fun r q => ⟨_, exec_st_regOp r q s, ?_, keepsMem_setMem_write _ _ s, fun _ _ => rfl, rfl, rfl, rfl, rfl, rfl⟩,
    fun _ _ ha => exec_st_highA ha, fun r _ hb => exec_st_highB hb r⟩
  rw [State.setMem_mem, Memory.read_write, if_pos rfl]

/-- Settles O57: a fetch at the address reads the byte the store left there. -/
theorem storedByteIsFetchedNext : Obligations.StoredByteIsFetchedNext := by
  intro s t r q hpc h
  rw [exec_st_regOp] at h
  obtain rfl := Host.Outcome.next.inj h
  refine ⟨_, _, fetch_ok hpc, ?_⟩
  rw [setPc_mem, setPc_pc, State.setMem_mem, Memory.read_write, if_pos rfl]

/-! ## The console -/

/-- R40: an event adds its own characters at the end of the stream. -/
theorem output_emit (e : Event) (s : State) : (emit e s).output = s.output ++ e.text := by
  simp [State.output]

/-- Settles O18: one event, whose text is the numeral and the newline. -/
theorem printRegisterEmitsOneDecimal : Obligations.PrintRegisterEmitsOneDecimal := by
  intro s
  refine ⟨fun hc a => ?encoding, fun r => ?emits, fun a ha => exec_prn_high ha⟩
  case encoding => exact congrArg (· :: [a]) hc.opcLegal.prn
  case emits =>
    refine ⟨_, exec_prn_regOp r s, rfl, ?_, fun _ _ => rfl, rfl, rfl, fun _ _ => rfl, rfl, rfl⟩
    rw [output_emit, Event.text, List.append_assoc]

/-- Settles O19: one event, whose text is the one character. -/
theorem printAlphaEmitsOneCharacter : Obligations.PrintAlphaEmitsOneCharacter := by
  intro s
  exact ⟨fun r => ⟨_, exec_pra_regOp r s, rfl, output_emit _ s, fun _ _ => rfl, rfl, rfl, fun _ _ => rfl, rfl, rfl⟩,
    fun _ ha => exec_pra_high ha⟩

/-- A code point below the surrogates is the number of its character. -/
theorem toNat_ofNat_of_lt {n : Nat} (h : n < 0xD800) : (Char.ofNat n).toNat = n := by
  rw [Char.toNat_ofNat, if_pos (.inl h)]

theorem toNat_digitChar {d : Nat} (h : d < 10) : (digitChar d).toNat = 48 + d :=
  toNat_ofNat_of_lt (by omega)

/-- The digits of a byte, most significant first. -/
def digitsOf (n : Nat) : List Nat :=
  if n < 10 then [n] else if n < 100 then [n / 10, n % 10] else [n / 100, n / 10 % 10, n % 10]

theorem decimal_eq_map_digitsOf (v : Byte) : decimal v = (digitsOf v.toNat).map digitChar := by
  simp only [decimal, digitsOf, apply_ite (List.map digitChar), List.map_cons, List.map_nil]

theorem digitsOf_lt {n : Nat} (h : n < 1000) : ∀ d ∈ digitsOf n, d < 10 := by
  unfold digitsOf
  split_ifs <;> simp <;> omega

/-- The digits read as a numeral give the number back. -/
theorem foldl_digitsOf (n : Nat) : (digitsOf n).foldl (fun n d => 10 * n + d) 0 = n := by
  unfold digitsOf
  split_ifs <;> simp <;> omega

/-- No leading zero but in the numeral of zero. -/
theorem digitsOf_shortest (n : Nat) : digitsOf n = [0] ∨ (digitsOf n).head? ≠ some 0 := by
  unfold digitsOf
  split_ifs <;> simp <;> omega

theorem digitsOf_ne_nil (n : Nat) : digitsOf n ≠ [] := by
  unfold digitsOf
  split_ifs <;> simp

/-- Settles O20: the digits are `digitsOf`, and every code point is below the surrogates. -/
theorem consoleTextIsTheShortestNumeral : Obligations.ConsoleTextIsTheShortestNumeral := by
  intro v
  have hv := v.isLt
  refine ⟨⟨digitsOf v.toNat, digitsOf_lt (by omega), foldl_digitsOf _, digitsOf_shortest _, digitsOf_ne_nil _, ?_⟩, ?_⟩
  · have hdigits : ((digitsOf v.toNat).map digitChar).map Char.toNat = (digitsOf v.toNat).map fun d => 48 + d := by
      rw [List.map_map]
      exact List.map_congr_left fun d hd => toNat_digitChar (digitsOf_lt (by omega) d hd)
    rw [Event.text, List.map_append, decimal_eq_map_digitsOf, hdigits]
    rfl
  · simp [Event.text, toNat_ofNat_of_lt (n := v.toNat) (by omega)]

end Sys2Proof.Machine
end

section
/-! SUPPORT. The stack (43_stack.md): the rule of `PUSH` and of `POP`, the frame of a push in the terms of the statements,
and sequences of pushes and pops. -/

namespace Sys2Proof.Machine

/-! ## Pushes and their frame (R170, R172) -/

section
variable {s : State}

theorem exec_push_regOp (h : s.reg 7 ≠ 0#8) (r : Fin 8) :
    exec (.push (regOp r)) s = .next (pushed (if r = 7 then s.reg 7 - 1#8 else s.reg r) s) := by
  simp [exec, execPush, stackDown, h, pushed]

theorem exec_push_full (h : s.reg 7 = 0#8) (r : Fin 8) :
    exec (.push (regOp r)) s = .next (takeFault (.outOfRange .stackPush) s) := by
  simp [exec, execPush, stackDown, h]

theorem exec_push_high {a : Byte} (h : 8 ≤ a.toNat) :
    exec (.push a) s = .next (takeFault (.outOfRange (.reg a)) s) := by
  simp [exec, execPush, checkReg_high h]

theorem pushed_sp_toNat (h : s.reg 7 ≠ 0#8) (v : Byte) : ((pushed v s).reg 7).toNat = (s.reg 7).toNat - 1 := by
  rw [pushed_reg, if_pos rfl, toNat_pred h]

theorem pushed_reg_of_ne {r : Fin 8} (h : r ≠ 7) (v : Byte) : (pushed v s).reg r = s.reg r := by
  rw [pushed_reg, if_neg h]

/-- R50, R170: a push writes the byte below the stack pointer and no other. -/
theorem read_pushed (h : s.reg 7 ≠ 0#8) (v : Byte) (a : Nat) :
    (pushed v s).mem.read a = if a = (s.reg 7).toNat - 1 then v else s.mem.read a := by
  rw [pushed_mem, Memory.read_write, toNat_pred h]

theorem keepsMem_pushed (h : s.reg 7 ≠ 0#8) (v : Byte) : KeepsMem [(s.reg 7).toNat - 1] s (pushed v s) := by
  intro a ha
  rw [read_pushed h, if_neg (List.ne_of_not_mem_cons ha)]

theorem keepsRegs_pushed (v : Byte) : KeepsRegs [7] s (pushed v s) :=
  fun _ hr => pushed_reg_of_ne (List.ne_of_not_mem_cons hr) v

theorem ne_zero_of_toNat_pos {b : Byte} (h : 0 < b.toNat) : b ≠ 0#8 := by
  rintro rfl
  exact absurd h (by decide)

end

/-- Settles O21: the register check, then the bound, then one push. -/
theorem pushStoresBelowTheStackPointer : Obligations.PushStoresBelowTheStackPointer := by
  intro s
  refine ⟨fun r h0 => ?push, fun r h0 => exec_push_full h0 r, fun _ ha => exec_push_high ha⟩
  case push =>
    refine ⟨_, exec_push_regOp h0 r, pushed_sp_toNat h0 _, ?_, keepsMem_pushed h0 _, keepsRegs_pushed _, rfl, rfl, rfl,
      rfl, rfl⟩
    rw [SP_eq, read_pushed h0, if_pos rfl, pushed_reg, if_pos rfl]

/-! ## Pops (R171, R173) -/

section
variable {s : State}

theorem exec_pop_regOp (h : (s.reg 7).toNat < s.env.config.spInit.toNat) (r : Fin 8) :
    exec (.pop (regOp r)) s = .next (stackUp (s.setReg r (s.mem.read (s.reg 7).toNat))) := by
  simp [exec, execPop, stackTop_ok h]

theorem exec_pop_empty (h : s.env.config.spInit.toNat ≤ (s.reg 7).toNat) (r : Fin 8) :
    exec (.pop (regOp r)) s = .next (takeFault (.outOfRange .stackPop) s) := by
  simp [exec, execPop, stackTop_empty h]

theorem exec_pop_high {a : Byte} (h : 8 ≤ a.toNat) : exec (.pop a) s = .next (takeFault (.outOfRange (.reg a)) s) := by
  simp [exec, execPop, checkReg_high h]

theorem writesOnlyRegs_pop (r : Fin 8) (v : Byte) : WritesOnlyRegs [r, 7] s (stackUp (s.setReg r v)) := by
  refine ⟨fun q hq => ?_, rfl, rfl, fun _ _ => rfl, rfl, rfl, rfl⟩
  obtain ⟨hqr, hq7⟩ : q ≠ r ∧ q ≠ 7 := by simpa using hq
  simp [hqr, hq7]

end

/-- Settles O22: the register check, then the bound, then the write and the increment, which follow each other in `R7`. -/
theorem popLoadsFromTheStackPointer : Obligations.PopLoadsFromTheStackPointer := by
  intro s
  refine ⟨fun r hsp => ?pop, fun r hsp => exec_pop_empty hsp r, fun _ ha => exec_pop_high ha⟩
  case pop =>
    refine ⟨_, exec_pop_regOp hsp r, fun hr => ⟨?_, ?_⟩, fun hr => ?_, writesOnlyRegs_pop r _⟩
    · simp [SP_eq ▸ hr]
    · have h7 : (7 : Fin 8) ≠ r := Ne.symm hr
      have hup : (stackUp (s.setReg r (s.mem.read (s.reg 7).toNat))).reg 7 = (stackUp s).reg 7 := by simp [h7]
      rw [SP_eq, hup, stackUp_toNat hsp]
    · subst hr
      simp [BitVec.toNat_add]

/-- Settles O23: the popped byte is the one just pushed, and the pointer goes down and up again. -/
theorem pushThenPopCopiesTheRegister : Obligations.PushThenPopCopiesTheRegister := by
  intro s t r q hr hq hpos hbound h
  have h0 : s.reg 7 ≠ 0#8 := ne_zero_of_toNat_pos hpos
  rw [exec_push_regOp h0, if_neg hr] at h
  obtain rfl := Host.Outcome.next.inj h
  have hsp := pushed_sp_toNat h0 (s.reg r)
  have htop : (pushed (s.reg r) s).mem.read ((pushed (s.reg r) s).reg 7).toNat = s.reg r := by
    rw [hsp, read_pushed h0, if_pos rfl]
  have hlt : ((pushed (s.reg r) s).reg 7).toNat < s.env.config.spInit.toNat := by
    rw [SP_eq] at hpos hbound
    omega
  refine ⟨_, exec_pop_regOp hlt q, ?_, ?_, ?_, ?_, keepsMem_pushed h0 _, rfl, rfl, rfl, rfl, rfl⟩
  · rw [htop]
    simp [SP_eq ▸ hq]
  · simp [Ne.symm hq]
  · intro p hp
    have hpq : p ≠ q := List.ne_of_not_mem_cons hp
    by_cases hp7 : p = 7
    · subst hp7
      simp [hpq]
    · simp [hpq, hp7]
  · rw [stackUp_mem, State.setReg_mem, read_pushed h0, if_pos rfl]

/-! ## Sequences (R174, R175) -/

/-- The cells that `n` pushes write lie just below the stack pointer. -/
theorem not_mem_cells_iff {a sp n : Nat} (h : n ≤ sp) :
    (a ∉ (List.range n).map fun k => sp - 1 - k) ↔ a < sp - n ∨ sp ≤ a := by
  simp only [List.mem_map, List.mem_range, not_exists, not_and]
  constructor
  case mp =>
    intro hne
    by_contra hin
    exact hne (sp - 1 - a) (by omega) (by omega)
  case mpr =>
    intro hout k hk
    omega

theorem popMany_succ_first (c : Config) (n : Nat) (s : State) : popMany c (n + 1) s =
    (pop c s).bind fun v u => (popMany c n u).bind fun vs u => .ok (v :: vs) u := rfl

/-- The last of `n + 1` pops can be taken apart as well as the first. -/
theorem popMany_succ_last (c : Config) (n : Nat) (s : State) : popMany c (n + 1) s =
    (popMany c n s).bind fun vs u => (pop c u).bind fun v u => .ok (vs ++ [v]) u := by
  induction n generalizing s with
  | zero => rfl
  | succ n ih =>
    rw [popMany_succ_first c (n + 1) s, popMany_succ_first c n s]
    simp only [ih, Res.bind_assoc, Res.bind_ok, List.cons_append]

/-- Settles O24, by induction on the list: the rest is pushed and popped below the first byte, which is then on top. -/
theorem pushesComeBackInReverse : Obligations.PushesComeBackInReverse := by
  intro vs
  induction vs with
  | nil =>
    intro s _ _
    exact ⟨s, s, rfl, rfl, rfl, fun _ _ => rfl, fun _ _ => rfl, rfl, rfl, rfl, rfl, rfl⟩
  | cons v vs ih =>
    intro s hfit hbound
    simp only [SP_eq, List.length_cons] at hfit hbound ih ⊢
    have h0 : s.reg 7 ≠ 0#8 := ne_zero_of_toNat_pos (by omega)
    have hsp := pushed_sp_toNat h0 v
    obtain ⟨t, u, hpush, htsp, hpop, hregs, hmem, hfl, hpc, hst, hcon, henv⟩ :=
      ih (pushed v s) (by omega) (by rw [pushed_env]; omega)
    have husp : u.reg 7 = (pushed v s).reg 7 := hregs 7 List.not_mem_nil
    have hlt : (u.reg 7).toNat < s.env.config.spInit.toNat := by rw [husp]; omega
    have houtside (a : Nat) (ha : (s.reg 7).toNat - 1 ≤ a ∨ a < (s.reg 7).toNat - (vs.length + 1)) :
        u.mem.read a = (pushed v s).mem.read a :=
      hmem a ((not_mem_cells_iff (by omega)).mpr (by omega))
    have htop : u.mem.read (u.reg 7).toNat = v := by
      rw [husp, hsp, houtside _ (by omega), read_pushed h0, if_pos rfl]
    refine ⟨t, stackUp u, ?pushes, by omega, ?pops, ?regs, ?mem, hfl, hpc, hst, hcon, henv⟩
    case pushes => rw [pushAll, push_ok h0, Res.bind_ok, hpush]
    case pops =>
      rw [pushed_env] at hpop
      rw [popMany_succ_last, hpop, Res.bind_ok, pop_ok hlt, Res.bind_ok, htop, List.reverse_cons]
    case regs =>
      intro r _
      by_cases hr : r = 7
      · subst hr
        simp [husp]
      · rw [stackUp_reg, if_neg hr, hregs r List.not_mem_nil, pushed_reg_of_ne hr]
    case mem =>
      intro a ha
      rw [not_mem_cells_iff (by omega)] at ha
      rw [stackUp_mem, houtside a (by omega), read_pushed h0, if_neg (by omega)]

end Sys2Proof.Machine
end

section
/-! SUPPORT. Control transfer (44_control.md) except `IRET`: the rule of each instruction with legal and with illegal
operands, and the statements. -/

namespace Sys2Proof.Machine

/-! ## The rule of each instruction -/

section
variable {s : State} {a : Byte}

theorem exec_call_regOp (h : s.reg 7 ≠ 0#8) (r : Fin 8) : exec (.call (regOp r)) s =
    .next (setPc ((pushed (s.pc + 2#8) s).reg r) (pushed (s.pc + 2#8) s)) := by
  simp [exec, execCall, push_ok h]

theorem exec_call_full (h : s.reg 7 = 0#8) (r : Fin 8) :
    exec (.call (regOp r)) s = .next (takeFault (.outOfRange .stackPush) s) := by
  simp [exec, execCall, push_full h]

theorem exec_call_high (h : 8 ≤ a.toNat) : exec (.call a) s = .next (takeFault (.outOfRange (.reg a)) s) := by
  simp [exec, execCall, checkReg_high h]

theorem exec_ret_ok (h : (s.reg 7).toNat < s.env.config.spInit.toNat) :
    exec .ret s = .next (setPc (s.mem.read (s.reg 7).toNat) (stackUp s)) := by
  simp [exec, execRet, pop_ok h]

theorem exec_ret_empty (h : s.env.config.spInit.toNat ≤ (s.reg 7).toNat) :
    exec .ret s = .next (takeFault (.outOfRange .stackPop) s) := by
  simp [exec, execRet, pop_empty h]

theorem outcome_jumpTo_ok (r : Fin 8) : (jumpTo (regOp r) s).outcome = .next (setPc (s.reg r) s) :=
  congrArg Res.outcome (jumpTo_ok r s)

theorem outcome_jumpTo_high (h : 8 ≤ a.toNat) :
    (jumpTo a s).outcome = .next (takeFault (.outOfRange (.reg a)) s) :=
  congrArg Res.outcome (jumpTo_high h s)

/-- R183, R118: a jump that is not taken steps over itself and does not look at its operand. -/
theorem outcome_skipTwo : (skipTwo s).outcome = .next (setPc (s.pc + 2#8) s) := rfl

theorem exec_jeq_taken (h : flagE s.fl = true) : exec (.jeq a) s = (jumpTo a s).outcome := by
  simp [exec, execJeq, h]

theorem exec_jeq_not_taken (h : flagE s.fl = false) : exec (.jeq a) s = (skipTwo s).outcome := by
  simp [exec, execJeq, h]

theorem exec_jne_taken (h : flagE s.fl = false) : exec (.jne a) s = (jumpTo a s).outcome := by
  simp [exec, execJne, h]

theorem exec_jne_not_taken (h : flagE s.fl = true) : exec (.jne a) s = (skipTwo s).outcome := by
  simp [exec, execJne, h]

end

/-! ## Calls and returns -/

theorem toNat_add_two (pc : Byte) : (pc + 2#8).toNat = (pc.toNat + 2) % 256 := BitVec.toNat_add pc 2#8

theorem keepsRegs_stackUp (s : State) : KeepsRegs [7] s (stackUp s) := by
  intro r hr
  rw [stackUp_reg, if_neg (List.ne_of_not_mem_cons hr)]

/-- Settles O25: the register check, one push of the wrapped return address, then the register as it is after the push. -/
theorem callPushesTheReturnAddress : Obligations.CallPushesTheReturnAddress := by
  intro s
  refine ⟨fun r h0 => ?call, fun r h0 => exec_call_full h0 r, fun _ ha => exec_call_high ha⟩
  case call =>
    refine ⟨_, exec_call_regOp h0 r, pushed_sp_toNat h0 (s.pc + 2#8), ?_, rfl,
      keepsMem_pushed h0 (s.pc + 2#8), keepsRegs_pushed (s.pc + 2#8), rfl, rfl, rfl, rfl⟩
    rw [setPc_mem, read_pushed h0, if_pos rfl, toNat_add_two]

/-- Settles O26: one pop, into `PC`. -/
theorem returnPopsTheTarget : Obligations.ReturnPopsTheTarget := by
  intro s
  constructor
  case left =>
    intro hsp
    exact ⟨_, exec_ret_ok hsp, rfl, stackUp_toNat hsp, keepsRegs_stackUp s, rfl, fun _ _ => rfl, rfl, rfl, rfl⟩
  case right => exact exec_ret_empty

/-- Settles O27: the byte on top is the pushed `PC + 2`, the length of a `CALL` is 2, and the pointer goes down and up. -/
theorem returnGoesToTheInstructionAfterTheCall : Obligations.ReturnGoesToTheInstructionAfterTheCall := by
  intro s t v r hconfig hpos hbound hcall hsp hbyte
  have h0 : s.reg 7 ≠ 0#8 := ne_zero_of_toNat_pos hpos
  rw [exec_call_regOp h0] at hcall
  obtain rfl := Host.Outcome.next.inj hcall
  have hv7 : v.reg 7 = s.reg 7 - 1#8 := by
    rw [SP_eq] at hsp
    simpa using hsp
  have hvsp : (v.reg 7).toNat = (s.reg 7).toNat - 1 := by rw [hv7, toNat_pred h0]
  have hvtop : v.mem.read (v.reg 7).toNat = s.pc + 2#8 := by
    rw [← hsp, setPc_mem, SP_eq, hvsp, read_pushed h0, if_pos rfl] at hbyte
    rw [hvsp, hbyte]
  have hlt : (v.reg 7).toNat < v.env.config.spInit.toNat := by
    rw [SP_eq] at hpos hbound
    rw [hconfig]
    omega
  refine ⟨_, exec_ret_ok hlt, ?_, ?_, keepsRegs_stackUp v, fun _ _ => rfl⟩
  · rw [setPc_pc, hvtop, toNat_add_two]
    rfl
  · rw [setPc_reg, stackUp_reg, if_pos rfl, hv7, BitVec.sub_add_cancel]

/-! ## Jumps and HLT -/

/-- Settles O28: `JMP` is a jump, always taken. -/
theorem jumpGoesToTheRegister : Obligations.JumpGoesToTheRegister := by
  intro s
  exact ⟨fun r => ⟨_, outcome_jumpTo_ok r, rfl, fun _ _ => rfl, rfl, fun _ _ => rfl, rfl, rfl, rfl⟩,
    fun _ ha => outcome_jumpTo_high ha⟩

/-- Settles O29: each of the two is a jump or a step over itself, as flag `E` says. -/
theorem conditionalJumpsTestTheEqualFlag : Obligations.ConditionalJumpsTestTheEqualFlag := by
  intro s
  refine ⟨fun r hE => ⟨_, (exec_jeq_taken hE).trans (outcome_jumpTo_ok r), rfl, ?_⟩,
    fun a hE => ⟨_, (exec_jeq_not_taken hE).trans outcome_skipTwo, toNat_add_two s.pc, ?_⟩,
    fun r hE => ⟨_, (exec_jne_taken hE).trans (outcome_jumpTo_ok r), rfl, ?_⟩,
    fun a hE => ⟨_, (exec_jne_not_taken hE).trans outcome_skipTwo, toNat_add_two s.pc, ?_⟩,
    fun a ha => ⟨fun hE => (exec_jeq_taken hE).trans (outcome_jumpTo_high ha),
      fun hE => (exec_jne_taken hE).trans (outcome_jumpTo_high ha)⟩⟩
  all_goals exact ⟨fun _ _ => rfl, rfl, fun _ _ => rfl, rfl, rfl, rfl⟩

/-- Settles O30: `HLT` writes the status, and the advance of its opcode is by 1. -/
theorem haltStopsTheMachine : Obligations.HaltStopsTheMachine := by
  intro s
  refine ⟨halt s, rfl, rfl, rfl, fun _ _ => rfl, rfl, fun _ _ => rfl, rfl, rfl, fun hc => ?_⟩
  rw [advance_hlt hc.opcLegal]
  exact ⟨BitVec.toNat_add s.pc 1#8, rfl⟩

end Sys2Proof.Machine
end

section
/-! SUPPORT. `IRET` (44_control.md R186) wherever the stack ends: which registers and flags it has loaded, where the stack
pointer stands, and the two statements about it. -/

namespace Sys2Proof.Machine

/-- The order in which `IRET` pops the registers, against their indices (R186). -/
theorem poppedRegs_getElem (r : Fin 8) (hr : r ≠ 7) :
    ∃ h : 6 - r.val < 7, ([6, 5, 4, 3, 2, 1, 0] : List (Fin 8))[6 - r.val] = r := by
  revert r
  decide

/-- What `IRET` has loaded when it ends, finished or faulted: the registers and flags whose byte lies below `SP_INIT`,
and `PC` when all nine bytes do. -/
structure IretLoads (s t : State) : Prop where
  reg : ∀ r : Fin 8, r ≠ 7 → t.reg r =
    if (s.reg 7).toNat + 6 - r.val < s.env.config.spInit.toNat then s.mem.read ((s.reg 7).toNat + 6 - r.val) else s.reg r
  fl : t.fl = if (s.reg 7).toNat + 7 < s.env.config.spInit.toNat then flagsOfByte (s.mem.read ((s.reg 7).toNat + 7)) else s.fl
  sp : (t.reg 7).toNat = max (s.reg 7).toNat (min ((s.reg 7).toNat + 9) s.env.config.spInit.toNat)
  finishes : (s.reg 7).toNat + 9 ≤ s.env.config.spInit.toNat →
    t.status = s.status ∧ t.pc = s.mem.read ((s.reg 7).toNat + 8)

/-- The four places at which `IRET` can end: in the pops of the registers, at the flags, at `PC`, or past the frame. -/
theorem iret_loads {s t : State} (h : exec .iret s = .next t) : IretLoads s t := by
  obtain ⟨u, hok, hraised, husp, hupopped, -, humem, hufl, -, hust, -⟩ :=
    popRegs_spec s.env.config [6, 5, 4, 3, 2, 1, 0] s (by decide) (by decide)
  simp only [List.length_cons, List.length_nil] at hok hraised husp
  have hureg (r : Fin 8) (hr : r ≠ 7) : u.reg r =
      if (s.reg 7).toNat + 6 - r.val < s.env.config.spInit.toNat then s.mem.read ((s.reg 7).toNat + 6 - r.val)
      else s.reg r := by
    obtain ⟨hlt, hget⟩ := poppedRegs_getElem r hr
    have hpopped := hupopped (6 - r.val) hlt
    rwa [hget, ← Nat.add_sub_assoc (by omega)] at hpopped
  simp only [exec, execIret] at h
  by_cases hregs : (s.reg 7).toNat + 7 ≤ s.env.config.spInit.toNat
  case neg =>
    rw [hraised (by omega) (by omega)] at h
    obtain rfl := Host.Outcome.next.inj h
    exact ⟨hureg, by rw [takeFault_fl, hufl, if_neg (by omega)], by rw [takeFault_reg]; omega, fun _ => by omega⟩
  rw [hok (.inr (by omega)), Res.bind_ok] at h
  by_cases hflags : (s.reg 7).toNat + 7 < s.env.config.spInit.toNat
  case neg =>
    rw [pop_empty (by omega)] at h
    obtain rfl := Host.Outcome.next.inj h
    exact ⟨hureg, by rw [takeFault_fl, hufl, if_neg hflags], by rw [takeFault_reg]; omega, fun _ => by omega⟩
  have hu7 : (u.reg 7).toNat = (s.reg 7).toNat + 7 := by omega
  have hu8 : ((stackUp u).reg 7).toNat = (s.reg 7).toNat + 8 := by
    rw [stackUp_toNat (c := s.env.config) (by omega)]
    omega
  rw [pop_ok (by omega), Res.bind_ok, hu7, humem] at h
  by_cases hpc : (s.reg 7).toNat + 8 < s.env.config.spInit.toNat
  case neg =>
    rw [pop_empty (by rw [setFl_reg]; omega)] at h
    obtain rfl := Host.Outcome.next.inj h
    refine ⟨fun r hr => ?_, by rw [takeFault_fl, setFl_fl, if_pos hflags], by rw [takeFault_reg, setFl_reg]; omega,
      fun _ => by omega⟩
    rw [takeFault_reg, setFl_reg, stackUp_reg, if_neg hr, hureg r hr]
  have hlt : ((setFl (flagsOfByte (s.mem.read ((s.reg 7).toNat + 7))) (stackUp u)).reg 7).toNat <
      s.env.config.spInit.toNat := by
    rw [setFl_reg]
    omega
  rw [pop_ok hlt] at h
  obtain rfl := Host.Outcome.next.inj h
  refine ⟨fun r hr => ?_, ?_, ?_, fun _ => ⟨hust, ?_⟩⟩
  · rw [setPc_reg, stackUp_reg, if_neg hr, setFl_reg, stackUp_reg, if_neg hr, hureg r hr]
  · rw [setPc_fl, stackUp_fl, setFl_fl, if_pos hflags]
  · rw [setPc_reg, stackUp_toNat hlt, setFl_reg]
    omega
  · rw [setPc_pc, setFl_mem, stackUp_mem, humem, setFl_reg, hu8]

/-- With nine bytes to pop `IRET` finishes, and everything is loaded. -/
theorem iret_finishes {s : State} (h : (s.reg 7).toNat + 9 ≤ s.env.config.spInit.toNat) :
    ∃ t, exec .iret s = .next t ∧
      (∀ r : Fin 8, r ≠ 7 → t.reg r = s.mem.read ((s.reg 7).toNat + 6 - r.val)) ∧
      t.fl = flagsOfByte (s.mem.read ((s.reg 7).toNat + 7)) ∧ t.pc = s.mem.read ((s.reg 7).toNat + 8) ∧
      (t.reg 7).toNat = (s.reg 7).toNat + 9 ∧ t.mem = s.mem ∧ KeepsRun s t := by
  obtain ⟨t, ht⟩ := exec_is_next .iret s
  have hl := iret_loads ht
  obtain ⟨hmem, hcon, henv, -⟩ := iret_cases ht
  obtain ⟨hst, hpc⟩ := hl.finishes h
  refine ⟨t, ht, fun r hr => ?_, ?_, hpc, ?_, hmem, hst, hcon, henv⟩
  · rw [hl.reg r hr, if_pos (by omega)]
  · rw [hl.fl, if_pos (by omega)]
  · rw [hl.sp]
    omega

/-- R186 (the spec's decision D13): the flags are the low three bits of the byte. -/
theorem flagsOfByte_getLsbD (v : Byte) {k : Nat} (hk : k < 3) : (flagsOfByte v).getLsbD k = v.getLsbD k := by
  rw [flagsOfByte, BitVec.truncate_eq_setWidth, BitVec.getLsbD_setWidth, decide_eq_true hk, Bool.true_and]

/-- Settles O31: with nine bytes to pop `IRET` finishes. -/
theorem interruptReturnLoadsTheFrame : Obligations.InterruptReturnLoadsTheFrame := by
  intro s h
  obtain ⟨t, ht, hreg, hfl, hpc, hsp, hmem, hrun⟩ := iret_finishes h
  exact ⟨t, ht, hreg, fun k hk => by rw [hfl, flagsOfByte_getLsbD _ hk], hpc, hsp, fun _ _ => by rw [hmem], hrun⟩

/-- Settles O32: what is loaded wherever the stack ends, and the one fault that `IRET` can end in. -/
theorem interruptReturnFaultsPartWay : Obligations.InterruptReturnFaultsPartWay := by
  intro s h
  rw [SP_eq] at h
  obtain ⟨t, ht⟩ := exec_is_next .iret s
  have hl := iret_loads ht
  obtain ⟨hmem, hcon, henv, ⟨-, hfits, -⟩ | ⟨hst, -, hpc⟩⟩ := iret_cases ht
  · omega
  · refine ⟨t, ht, hst, ?_, hl.reg, hl.fl, hpc, fun _ _ => by rw [hmem], hcon, henv⟩
    rw [SP_eq, hl.sp]
    omega

end Sys2Proof.Machine
end

section
/-! SUPPORT. The interrupt controller (60_exceptions.md Part B): what latching the inputs sets, which line is serviced,
what entry leaves wherever the stack runs out, and that `IRET` undoes an entry. -/

namespace Sys2Proof.Machine

/-! ## Latching the inputs (R211, R212) -/

theorem lineBit_getLsbD (i : Fin 8) (k : Nat) (hk : k < 8) : (lineBit i).getLsbD k = decide (k = i.val) := by
  have h : ∀ i j : Fin 8, (lineBit i).getLsbD j = decide (j.val = i.val) := by decide
  exact h i ⟨k, hk⟩

/-- What the timer source leaves of the pending register, bit by bit (R211). -/
theorem latchTimer_bits (tick : Bool) (s : State) {k : Nat} (hk : k < 8) :
    ((latchTimer tick s).reg 6).getLsbD k = ((s.reg 6).getLsbD k || (decide (k = 0) && tick)) := by
  cases tick with
  | false => simp [latchTimer]
  | true => simp [latchTimer, lineBit_getLsbD 0 k hk]

/-- The timer source writes the pending register only. -/
theorem latchTimer_keeps (tick : Bool) (s : State) :
    KeepsRegs [6] s (latchTimer tick s) ∧ (latchTimer tick s).fl = s.fl ∧ (latchTimer tick s).pc = s.pc ∧
      KeepsRun s (latchTimer tick s) := by
  cases tick with
  | false => exact ⟨fun _ _ => rfl, rfl, rfl, rfl, rfl, rfl⟩
  | true =>
    refine ⟨fun r hr => ?_, rfl, rfl, rfl, rfl, rfl⟩
    have hne : r ≠ 6 := List.ne_of_not_mem_cons hr
    simp [latchTimer, hne]

/-- What a key leaves: pending bit 1 and the keyboard cell (R212). -/
theorem latchKey_some (c : Config) (k : Byte) (s : State) : latchKey c (some k) s =
    .ok () ((s.setReg 6 (s.reg 6 ||| lineBit 1)).setMem (s.mem.write c.keyAddr.toNat k)) :=
  memWrite_byte c.keyAddr k (s.setReg 6 (s.reg 6 ||| lineBit 1))

/-- Settles O33: the timer source, then, by whether there is a key, the keyboard source. -/
theorem inputsSetPendingBits : Obligations.InputsSetPendingBits := by
  rintro ⟨tick, key⟩ s
  obtain ⟨hregs, hfl, hpc, hrun⟩ := latchTimer_keeps tick s
  have hbits {k : Nat} (hk : k < 8) := latchTimer_bits tick s hk
  cases key with
  | none =>
    refine ⟨latchTimer tick s, rfl, fun k hk => ?_, by simp, fun _ _ => by rw [latchTimer_mem], hregs, hfl, hpc, hrun⟩
    simp [hbits hk]
  | some b =>
    refine ⟨_, latchKey_some s.env.config b (latchTimer tick s), fun k hk => ?_, by simp, ?_, fun r hr => ?_, hfl, hpc,
      hrun⟩
    · simp [hbits hk, lineBit_getLsbD 1 k hk]
    · have hstore := keepsMem_setMem_write s.env.config.keyAddr.toNat b (latchTimer tick s)
      intro a ha
      exact (hstore a ha).trans (by rw [latchTimer_mem])
    · have hne : r ≠ 6 := List.ne_of_not_mem_cons hr
      simpa [hne] using hregs r hr

/-! ## Arbitration (R213, R214) -/

/-- R213: a line can be serviced when it is pending and enabled. -/
theorem serviceable_getLsbD (s : State) (i : Nat) :
    (serviceable s).getLsbD i = ((s.reg 6).getLsbD i && (s.reg 5).getLsbD i) := BitVec.getLsbD_and ..

theorem service_of_none {c : Config} {s : State} (h : serviceable s = 0#8) : service c s = .ok () s := by
  rw [service, (arbiter_eq_none_iff _).mpr h]

theorem service_of_lowest {c : Config} {s : State} {i : Fin 8} (hi : (serviceable s).getLsbD i = true)
    (hlow : ∀ j : Fin 8, j < i → (serviceable s).getLsbD j = false) : service c s = enter c i s := by
  rw [service, (arbiter_eq_some_iff _ i).mpr ⟨hi, hlow⟩]

/-- Step 1 of a cycle is the arbitration in the state that the latched inputs leave (R210). -/
theorem pollInterrupts_eq_service {s u : State}
    (h : latchKey s.env.config (currentInput s).key (latchTimer (currentInput s).tick (sampled s)) = .ok () u) :
    pollInterrupts s = service s.env.config u := by
  rw [pollInterrupts, interruptController, h, Res.bind_ok]

/-- Settles O35: the arbiter's answer is the lowest bit of `x[6] & x[5]`. -/
theorem controllerServicesTheLowestEnabledLine : Obligations.ControllerServicesTheLowestEnabledLine := by
  intro s u hu
  rw [pollInterrupts_eq_service hu]
  constructor
  case left =>
    intro hnone
    refine service_of_none ((byte_eq_zero_iff_lines_clear _).mpr fun i => ?_)
    rw [serviceable_getLsbD]
    simpa using hnone i
  case right =>
    intro i hpending henabled hlow
    refine service_of_lowest ?_ fun j hj => ?_
    · rw [serviceable_getLsbD]
      simp [IS_eq ▸ hpending, IM_eq ▸ henabled]
    · rw [serviceable_getLsbD]
      simpa using hlow j hj

/-! ## Entry (R220 to R224) -/

/-- An entry whose pushes all fit ends with the vector in `PC`. -/
theorem enter_of_pushContext_ok {c : Config} {i : Fin 8} {s t : State} (h : pushContext (clearPending i s) = .ok () t) :
    enter c i s = (memRead (c.vecBase.toNat + i.val) t).bind fun v u => .ok () (setPc v u) := by
  rw [enter, h, Res.bind_ok]

theorem enter_of_pushContext_raised {c : Config} {i : Fin 8} {s t : State} {f : Fault}
    (h : pushContext (clearPending i s) = .raised f t) : enter c i s = .raised f t := by
  rw [enter, h, Res.bind_raised]

/-- The interrupt frame in memory, with the pending register as it is saved. -/
theorem frameByte_clearPending_reg (i : Fin 8) (s : State) {r : Fin 8} (hr : r ≠ 7) :
    ∃ k : Fin 9, k.val = 6 - r.val ∧ r.val ≤ 6 ∧ frameByte (clearPending i s) k = (clearPending i s).reg r := by
  have hr6 : r.val ≤ 6 := by omega
  refine ⟨⟨6 - r.val, by omega⟩, rfl, hr6, ?_⟩
  rw [frameByte_reg _ _ (Nat.sub_le 6 _)]
  congr 1
  exact Fin.ext (Nat.sub_sub_self hr6)

/-- Settles O36: the nine pushes fit, the vector slot is inside memory, and nothing else is written. -/
theorem entrySavesTheContext : Obligations.EntrySavesTheContext := by
  intro s i hc h9
  simp only [SP_eq, IS_eq] at h9 ⊢
  have hsp : (clearPending i s).reg 7 = s.reg 7 := clearPending_reg i s (by decide)
  obtain ⟨t, hok, -, htsp, htop, hout, hregs, hfl, hpc, hrun⟩ := pushContext_spec (clearPending i s)
  rw [hsp] at hok htsp htop hout
  have henter : enter s.env.config i s = .ok () (setPc (t.mem.read (s.env.config.vecBase.toNat + i.val)) t) := by
    rw [enter_of_pushContext_ok (hok h9), memRead_inside (vector_inside hc i), Res.bind_ok]
  have hframe (k : Fin 9) : t.mem.read (k.val + (s.reg 7).toNat - 9) = frameByte (clearPending i s) k :=
    htop k (by omega)
  refine ⟨_, henter, htsp, fun j => ?pending, fun r hr => ?regs, hfl, hrun, ?pc, ?fl, fun r hr => ?saved, fun a ha => ?mem,
    rfl⟩
  case pending =>
    rw [setPc_reg, hregs 6 (by decide), clearPending_bits]
  case regs =>
    obtain ⟨hr6, hr7⟩ : r ≠ 6 ∧ r ≠ 7 := by simpa using hr
    rw [setPc_reg, hregs r hr7, clearPending_reg i s hr6]
  case pc =>
    have h8 := hframe 8
    rwa [show (8 : Fin 9).val + (s.reg 7).toNat - 9 = (s.reg 7).toNat - 1 by simp; omega] at h8
  case fl =>
    have h7 := hframe 7
    rwa [show (7 : Fin 9).val + (s.reg 7).toNat - 9 = (s.reg 7).toNat - 2 by simp; omega] at h7
  case saved =>
    obtain ⟨k, hk, hr6, hkr⟩ := frameByte_clearPending_reg i s hr
    have hread := hframe k
    rw [hkr, ← hregs r hr, show k.val + (s.reg 7).toNat - 9 = (s.reg 7).toNat - 3 - r.val by omega] at hread
    exact hread
  case mem =>
    rw [setPc_mem, hout a ((not_mem_cells_iff h9).mp ha)]
    rfl

/-- Settles O37: the pushes that fit are the top of the frame, and the next one faults. -/
theorem entryFaultsWhenTheStackRunsOut : Obligations.EntryFaultsWhenTheStackRunsOut := by
  intro s i h9
  simp only [SP_eq, IS_eq] at h9 ⊢
  have hsp : (clearPending i s).reg 7 = s.reg 7 := clearPending_reg i s (by decide)
  obtain ⟨t, -, hraised, htsp, htop, hout, hregs, hfl, hpc, hrun⟩ := pushContext_spec (clearPending i s)
  rw [hsp] at hraised htsp htop hout
  refine ⟨t, enter_of_pushContext_raised (hraised h9), ?_, fun j => ?_, fun r hr => ?_, hfl, hpc, hrun, htop,
    fun a ha => ?_⟩
  · exact BitVec.eq_of_toNat_eq (by rw [htsp]; simp; omega)
  · rw [hregs 6 (by decide), clearPending_bits]
  · obtain ⟨hr6, hr7⟩ : r ≠ 6 ∧ r ≠ 7 := by simpa using hr
    rw [hregs r hr7, clearPending_reg i s hr6]
  · have hle : (s.reg 7).toNat ≤ a := by simpa using ha
    exact hout a (.inr hle)

/-! ## Return from a handler (R227) -/

@[simp] theorem flagsOfByte_flagByte (fl : FlagBits) : flagsOfByte (flagByte fl) = fl := by
  decide +revert

/-- What an entry that finished has pushed, whatever the vector. -/
theorem enter_ok_frame {c : Config} {s t : State} {i : Fin 8} (h9 : 9 ≤ (s.reg 7).toNat) (h : enter c i s = .ok () t) :
    (t.reg 7).toNat = (s.reg 7).toNat - 9 ∧
      ∀ k : Fin 9, t.mem.read (k.val + (s.reg 7).toNat - 9) = frameByte (clearPending i s) k := by
  have hsp : (clearPending i s).reg 7 = s.reg 7 := clearPending_reg i s (by decide)
  obtain ⟨u, hok, -, husp, htop, -⟩ := pushContext_spec (clearPending i s)
  rw [hsp] at hok husp htop
  rw [enter_of_pushContext_ok (hok h9)] at h
  obtain ⟨v, w, hread, hw⟩ := Res.bind_eq_ok.mp h
  obtain rfl : w = u := by
    unfold memRead at hread
    split at hread <;> cases hread
    rfl
  cases hw
  exact ⟨husp, fun k => htop k (by omega)⟩

/-- Settles O38: `IRET` finds at each offset the frame byte that entry pushed there. -/
theorem interruptReturnReversesEntry : Obligations.InterruptReturnReversesEntry := by
  intro s t v i hconfig h9 hbound henter hsp hmem
  simp only [SP_eq, IS_eq] at h9 hbound hsp hmem ⊢
  obtain ⟨htsp, hframe⟩ := enter_ok_frame h9 henter
  rw [← hsp] at htsp
  have hbyte (k : Fin 9) : v.mem.read ((v.reg 7).toNat + k.val) = frameByte (clearPending i s) k := by
    have hk := k.isLt
    rw [← hframe k, show k.val + (s.reg 7).toNat - 9 = (v.reg 7).toNat + k.val by omega]
    exact hmem _ (by omega) (by omega)
  obtain ⟨u, hu, hureg, hufl, hupc, husp, humem, hurun⟩ := iret_finishes (s := v) (by rw [hconfig]; omega)
  have hrestored (r : Fin 8) (hr : r ≠ 7) : u.reg r = (clearPending i s).reg r := by
    obtain ⟨k, hk, hr6, hkr⟩ := frameByte_clearPending_reg i s hr
    rw [hureg r hr, show (v.reg 7).toNat + 6 - r.val = (v.reg 7).toNat + k.val by omega, hbyte k, hkr]
  refine ⟨u, hu, fun r hr => ?_, fun j => ?_, ?_, ?_, fun _ _ => by rw [humem], hurun⟩
  · have hr6 : r ≠ 6 := List.ne_of_not_mem_cons hr
    by_cases hr7 : r = 7
    · subst hr7
      exact BitVec.eq_of_toNat_eq (by omega)
    · rw [hrestored r hr7, clearPending_reg i s hr6]
  · rw [hrestored 6 (by decide), clearPending_bits]
  · exact hufl.trans ((congrArg flagsOfByte (hbyte 7)).trans (flagsOfByte_flagByte s.fl))
  · exact hupc.trans (hbyte 8)

/-! ## What the hardware writes (R24, R25, R225) -/

/-- An entry, finished or not, leaves every register but the stack pointer as it is once the pending bit is cleared. -/
theorem enter_state_reg (c : Config) (i : Fin 8) (s : State) {r : Fin 8} (hr : r ≠ 7) :
    (enter c i s).state.reg r = (clearPending i s).reg r := by
  obtain ⟨t, hok, hraised, -, -, -, hregs, -⟩ := pushContext_spec (clearPending i s)
  by_cases h9 : 9 ≤ ((clearPending i s).reg 7).toNat
  · rw [enter_of_pushContext_ok (hok h9), ← hregs r hr, memRead]
    split <;> rfl
  · rw [enter_of_pushContext_raised (hraised (Nat.not_le.mp h9))]
    exact hregs r hr

/-- Arbitration writes only the pending register, of which it clears bits, and the stack pointer. -/
theorem service_state_regs (c : Config) (s : State) :
    KeepsRegs [6, 7] s (service c s).state ∧
      ∀ k : Fin 8, ((service c s).state.reg 6).getLsbD k = true → (s.reg 6).getLsbD k = true := by
  unfold service
  split
  · exact ⟨fun _ _ => rfl, fun _ h => h⟩
  · next i _ =>
    constructor
    · intro r hr
      obtain ⟨hr6, hr7⟩ : r ≠ 6 ∧ r ≠ 7 := by simpa using hr
      rw [enter_state_reg c i s hr7, clearPending_reg i s hr6]
    · intro k hk
      rw [enter_state_reg c i s (by decide), clearPending_bits, Bool.and_eq_true] at hk
      exact hk.1

/-- Settles O39: the inputs set bits 0 and 1 only, arbitration sets none, and neither writes another register. -/
theorem hardwareWritesOnlyPendingAndStackPointer : Obligations.HardwareWritesOnlyPendingAndStackPointer := by
  intro s
  obtain ⟨u, hu, hbits, -, -, hregs, -⟩ := inputsSetPendingBits (currentInput s) (sampled s)
  have hpoll := pollInterrupts_eq_service hu
  obtain ⟨hkeeps, hclears⟩ := service_state_regs s.env.config u
  refine ⟨fun r hr => ?_, (poll_frame s).fl, fun k hk hset => ?_⟩
  · obtain ⟨hr6, -⟩ : r ≠ 6 ∧ r ≠ 7 := by simpa using hr
    rw [hpoll, hkeeps r hr, hregs r (mt List.mem_singleton.mp hr6)]
    rfl
  · have hk8 : k < 8 := BitVec.lt_of_getLsbD hset
    rw [hpoll] at hset
    have hu6 : (u.reg 6).getLsbD k = true := hclears ⟨k, hk8⟩ hset
    have hk0 : k ≠ 0 := by omega
    have hk1 : k ≠ 1 := by omega
    rw [IS_eq] at hbits
    simpa [hbits k hk8, hk0, hk1] using hu6

end Sys2Proof.Machine
end

section
/-! SUPPORT. What an instruction keeps and how it can fault (40_cycle.md R123, 60_exceptions.md R200), each read off the
inversion lemmas `exec_cases` and `iret_cases`, and the statements that say so of every instruction. -/

namespace Sys2Proof.Machine

/-! ## Frames -/

/-- The frame of one run of an instruction (R22, R30, R40, R57): what `i` does not write is in `t` as it is in `s`. -/
def ExecKeeps (i : Instr) (s t : State) : Prop :=
  (∀ r, regOp r ∉ i.destinations → t.reg r = s.reg r) ∧
  (i.writesFlags = false → t.fl = s.fl) ∧
  (∀ a, i.storeAddress s ≠ some a → t.mem.read a = s.mem.read a) ∧
  (i.emits = false → t.console = s.console) ∧
  t.env = s.env

/-- A register instruction writes nothing but a register among its destinations. -/
theorem execKeeps_setReg {i : Instr} {s : State} {r : Fin 8} {v : Byte} (hd : regOp r ∈ i.destinations) :
    ExecKeeps i s (s.setReg r v) := by
  refine ⟨fun q hq => ?_, fun _ => rfl, fun _ _ => rfl, fun _ => rfl, rfl⟩
  have hne : q ≠ r := fun h => hq (h ▸ hd)
  simp [hne]

/-- A push writes the stack pointer and the byte at the decremented pointer. -/
theorem execKeeps_pushed {i : Instr} {s : State} {v : Byte} (hd : regOp 7 ∈ i.destinations)
    (ha : i.storeAddress s = some (s.reg SP - 1#8).toNat) : ExecKeeps i s (pushed v s) := by
  refine ⟨fun q hq => ?_, fun _ => rfl, fun a hne => ?_, fun _ => rfl, rfl⟩
  · have hq7 : q ≠ 7 := fun h => hq (h ▸ hd)
    simp [hq7]
  · have hne' : a ≠ (s.reg 7 - 1#8).toNat := fun h => hne (h ▸ ha)
    rw [pushed_mem, Memory.read_write, if_neg hne']

theorem exec_keeps {i : Instr} {s t : State} (h : exec i s = .next t) : ExecKeeps i s t := by
  by_cases hi : i = .iret
  · subst hi
    obtain ⟨hmem, hconsole, henv, -⟩ := iret_cases h
    refine ⟨fun r hr => absurd ?_ hr, nofun, fun a _ => by rw [hmem], fun _ => hconsole, henv⟩
    revert r
    decide
  cases exec_cases hi h with
  | faulted f ht =>
    subst ht
    exact ⟨fun _ _ => rfl, fun _ => rfl, fun _ _ => rfl, fun _ => rfl, rfl⟩
  | wroteReg r v ht hd =>
    subst ht
    exact execKeeps_setReg hd
  | wroteFlags v hi ht =>
    obtain ⟨a, b, rfl⟩ := hi
    subst ht
    exact ⟨fun _ _ => rfl, nofun, fun _ _ => rfl, fun _ => rfl, rfl⟩
  | stored r q hi ht =>
    subst hi ht
    refine ⟨fun _ _ => rfl, fun _ => rfl, fun a ha => ?_, fun _ => rfl, rfl⟩
    have hne : a ≠ (s.reg r).toNat := by
      rintro rfl
      simp [Instr.storeAddress] at ha
    simp [hne]
  | emitted e hi ht =>
    subst ht
    obtain ⟨a, rfl | rfl⟩ := hi <;> exact ⟨fun _ _ => rfl, fun _ => rfl, fun _ _ => rfl, nofun, rfl⟩
  | didPush r hi _ ht =>
    subst hi ht
    exact execKeeps_pushed (List.mem_singleton.mpr rfl) rfl
  | didPop r hi _ ht =>
    subst hi ht
    refine ⟨fun q hq => ?_, fun _ => rfl, fun _ _ => rfl, fun _ => rfl, rfl⟩
    have hqr : q ≠ r := by
      rintro rfl
      simp [Instr.destinations] at hq
    have hq7 : q ≠ 7 := by
      rintro rfl
      exact hq (by simp [Instr.destinations, regOp])
    simp [hqr, hq7]
  | called r hi _ ht =>
    subst hi ht
    exact execKeeps_pushed (v := s.pc + 2#8) (List.mem_singleton.mpr rfl) rfl
  | returned hi _ ht =>
    subst hi ht
    refine ⟨fun q hq => ?_, fun _ => rfl, fun _ _ => rfl, fun _ => rfl, rfl⟩
    have hq7 : q ≠ 7 := by
      rintro rfl
      exact hq (List.mem_singleton.mpr rfl)
    simp [hq7]
  | jumped r _ ht | skipped a _ ht =>
    subst ht
    exact ⟨fun _ _ => rfl, fun _ => rfl, fun _ _ => rfl, fun _ => rfl, rfl⟩
  | halted _ ht =>
    subst ht
    exact ⟨fun _ _ => rfl, fun _ => rfl, fun _ _ => rfl, fun _ => rfl, rfl⟩

/-- Settles O48: the frame, case by case of how an instruction can end. -/
theorem instructionsKeepWhatTheyDoNotWrite : Obligations.InstructionsKeepWhatTheyDoNotWrite :=
  fun _ _ _ h => exec_keeps h

theorem exec_env {i : Instr} {s t : State} (h : exec i s = .next t) : t.env = s.env := by
  obtain ⟨-, -, -, -, henv⟩ := exec_keeps h
  exact henv

theorem exec_fl {i : Instr} {s t : State} (h : exec i s = .next t) (hi : i.writesFlags = false) : t.fl = s.fl := by
  obtain ⟨-, hfl, -, -, -⟩ := exec_keeps h
  exact hfl hi

/-- R40: an instruction leaves the console as it is or, printing, appends one event. -/
theorem exec_console {i : Instr} {s t : State} (h : exec i s = .next t) :
    t.console = s.console ∨ i.emits = true ∧ ∃ e, t.console = s.console ++ [e] := by
  by_cases hem : i.emits = true
  case neg =>
    obtain ⟨-, -, -, hconsole, -⟩ := exec_keeps h
    exact .inl (hconsole (Bool.not_eq_true _ ▸ hem))
  have hi : i ≠ .iret := by
    rintro rfl
    exact absurd hem (by decide)
  cases exec_cases hi h with
  | emitted e _ ht => exact .inr ⟨hem, e, by rw [ht, emit_console]⟩
  | faulted _ ht | wroteReg _ _ ht | wroteFlags _ _ ht | stored _ _ _ ht | didPush _ _ _ ht | didPop _ _ _ ht
  | called _ _ _ ht | returned _ _ ht | jumped _ _ ht | skipped _ _ ht | halted _ ht =>
    subst ht
    exact .inl rfl

/-- Every store of an instruction is at a byte address, so memory stays canonical. -/
theorem exec_wf {i : Instr} {s t : State} (h : exec i s = .next t) (hwf : s.mem.wf = true) : t.mem.wf = true := by
  by_cases hi : i = .iret
  · subst hi
    obtain ⟨hmem, -⟩ := iret_cases h
    rwa [hmem]
  cases exec_cases hi h with
  | stored _ _ _ ht | didPush _ _ _ ht | called _ _ _ ht =>
    subst ht
    exact Memory.wf_write _ hwf (byte_lt_memSize _)
  | faulted _ ht | wroteReg _ _ ht | wroteFlags _ _ ht | emitted _ _ ht | didPop _ _ _ ht | returned _ _ ht
  | jumped _ _ ht | skipped _ _ ht | halted _ ht =>
    subst ht
    exact hwf

/-! ## Faults -/

/-- In a running machine an instruction that ends faulted has taken that fault, has changed nothing else, and had a cause. -/
theorem ExecResult.of_faulted {i : Instr} {s t : State} {f : Fault} (h : ExecResult i s t) (hs : s.status = .running)
    (hf : t.status = .faulted f) : t = takeFault f s ∧ FaultCause f i s := by
  cases h with
  | faulted g ht hc =>
    subst ht
    obtain rfl : g = f := Status.faulted.inj hf
    exact ⟨rfl, hc⟩
  | wroteReg _ _ ht | wroteFlags _ _ ht | stored _ _ _ ht | emitted _ _ ht | didPush _ _ _ ht | didPop _ _ _ ht
  | called _ _ _ ht | returned _ _ ht | jumped _ _ ht | skipped _ _ ht =>
    subst ht
    cases hs.symm.trans hf
  | halted _ ht =>
    subst ht
    cases hf

/-- In a running machine `IRET` can fault at a pop only. -/
theorem iret_faulted {s t : State} {f : Fault} (h : exec .iret s = .next t) (hs : s.status = .running)
    (hf : t.status = .faulted f) : f = .outOfRange .stackPop ∧ s.env.config.spInit.toNat ≤ (t.reg 7).toNat := by
  obtain ⟨-, -, -, ⟨hst, -⟩ | ⟨hst, hsp, -⟩⟩ := iret_cases h
  · cases (hs.symm.trans hst.symm).trans hf
  · exact ⟨Status.faulted.inj (hf.symm.trans hst), hsp⟩

/-- Settles O49: the fault was taken in the state before. -/
theorem faultingInstructionsChangeOnlyTheStatus : Obligations.FaultingInstructionsChangeOnlyTheStatus := by
  intro i s t f hi hs h hf
  exact ((exec_cases hi h).of_faulted hs hf).1

/-- Settles O50: a fault of `IRET` is one at a pop, one of another instruction has a cause of the table. -/
theorem faultKindsFollowTheCauseTable : Obligations.FaultKindsFollowTheCauseTable := by
  intro i s t f hs h hf
  by_cases hi : i = .iret
  · subst hi
    obtain ⟨rfl, -⟩ := iret_faulted h hs hf
    exact .inr (.inl rfl)
  obtain ⟨-, hc⟩ := (exec_cases hi h).of_faulted hs hf
  cases f with
  | unsupportedInstruction op | unsupportedOperation op => exact hc
  | divisionByZero p =>
    obtain ⟨hp, a, q, rfl, -⟩ := hc
    exact ⟨hp, a, regOp q, rfl⟩
  | outOfRange loc =>
    cases loc with
    | mem a => exact hc
    | reg a =>
      obtain ⟨ha, hmem⟩ := hc
      refine ⟨ha, hmem, List.all_eq_false.mpr ⟨a, hmem, ?_⟩⟩
      simpa using ha
    | stackPush => exact hc.2
    | stackPop =>
      obtain ⟨-, rfl | hpop⟩ := hc
      · exact .inl rfl
      · exact .inr (.inr hpop)

end Sys2Proof.Machine
end

section
/-! SUPPORT. What every step keeps (40_cycle.md R110, R122): the frame of the front end and of a step, and, from them, the
invariant: a cycle ends running, one past a `HLT`, or with a fault whose condition the state shows. -/

namespace Sys2Proof.Machine

/-! ## The front end of a cycle -/

/-- Only step 1 of a cycle writes before the instruction runs: fetch and decode leave the state it left. -/
theorem frontEnd_state (s : State) : (frontEnd s).state = (pollInterrupts s).state := by
  obtain ⟨u, h⟩ := frontEnd_cases s
  generalize frontEnd s = r at h
  cases h with
  | entryFault _ hp | fetchFault hp | decodeError _ hp | ready _ hp => rw [hp]; rfl

/-- What the front end leaves of the state a cycle begins in. -/
structure FrontEndFrame (s u : State) : Prop where
  fl : u.fl = s.fl
  status : u.status = s.status
  console : u.console = s.console
  env : u.env = (sampled s).env
  wf : s.mem.wf = true → u.mem.wf = true

theorem frontEnd_frame (s : State) : FrontEndFrame s (frontEnd s).state := by
  have h := poll_frame s
  rw [frontEnd_state]
  exact ⟨h.fl, h.status, h.console, h.env, h.wf⟩

theorem frontEnd_ok_frame {s u : State} {p : Byte × Instr} (h : frontEnd s = .ok p u) : FrontEndFrame s u := by
  have hf := frontEnd_frame s
  rwa [h] at hf

theorem frontEnd_raised_frame {s u : State} {f : Fault} (h : frontEnd s = .raised f u) : FrontEndFrame s u := by
  have hf := frontEnd_frame s
  rwa [h] at hf

theorem FrontEndFrame.config {s u : State} (h : FrontEndFrame s u) : u.env.config = s.env.config :=
  (congrArg Env.config h.env).trans (sampled_config s)

/-! ## Frames of a step -/

/-- R38: a step of a running machine samples one input, and nothing else of the cycle touches the surroundings. -/
theorem step_env_of_running {s t : State} (h : step s = .next t) (hs : s.status = .running) :
    t.env = (sampled s).env := by
  cases step_cases h with
  | stopped hstop => exact absurd hs hstop
  | faulted _ f u hf ht =>
    subst ht
    exact (frontEnd_raised_frame hf).env
  | ran _ op i u v hf he ht =>
    subst ht
    rw [advance_env, exec_env he, (frontEnd_ok_frame hf).env]

theorem step_eq_self_of_stopped {s t : State} (h : step s = .next t) (hs : s.status ≠ .running) : t = s := by
  rw [step_stopped hs] at h
  exact (Host.Outcome.next.inj h).symm

/-- Settles O53: sampling an input keeps the configuration, and no other part of a cycle writes the surroundings. -/
theorem configurationNeverChanges : Obligations.ConfigurationNeverChanges := by
  intro s t h
  by_cases hs : s.status = .running
  · rw [step_env_of_running h hs, sampled_config]
  · rw [step_eq_self_of_stopped h hs]

/-- Settles O47: a running machine samples once a step, a stopped one does nothing. -/
theorem eachRunningCycleTakesOneInput : Obligations.EachRunningCycleTakesOneInput := by
  intro s t h
  constructor
  case left =>
    intro hs
    rw [step_env_of_running h hs]
    exact ⟨rfl, rfl⟩
  case right =>
    intro hs
    rw [step_eq_self_of_stopped h hs]

/-- Settles O44: neither the front end nor step 4 writes `FL`, so the instruction did. -/
theorem flagsChangeOnlyByCompareAndReturn : Obligations.FlagsChangeOnlyByCompareAndReturn := by
  intro s t h hne
  cases step_cases h with
  | stopped _ ht => exact absurd (congrArg State.fl ht) hne
  | faulted _ f u hf ht =>
    subst ht
    exact absurd (frontEnd_raised_frame hf).fl hne
  | ran _ op i u v hf he ht =>
    subst ht
    refine ⟨op, i, u, hf, ?_⟩
    have hw : i.writesFlags = true := by
      by_contra hw
      refine hne ?_
      rw [advance_fl, exec_fl he (Bool.eq_false_of_not_eq_true hw), (frontEnd_ok_frame hf).fl]
    cases i with
    | iret => exact .inl rfl
    | cmp a b => exact .inr ⟨a, b, rfl⟩
    | _ => cases hw

/-- Settles O46: neither the front end nor step 4 writes the console, and an instruction appends at most one event. -/
theorem consoleOnlyGrows : Obligations.ConsoleOnlyGrows := by
  intro s t h
  cases step_cases h with
  | stopped _ ht => exact .inl (congrArg State.console ht)
  | faulted _ f u hf ht =>
    subst ht
    exact .inl (frontEnd_raised_frame hf).console
  | ran _ op i u v hf he ht =>
    subst ht
    rw [advance_console, ← (frontEnd_ok_frame hf).console]
    obtain hsame | ⟨hem, e, happend⟩ := exec_console he
    · exact .inl hsame
    · exact .inr ⟨op, i, u, e, hf, hem, happend⟩

/-! ## The invariant -/

theorem StatusTrue.of_running {s : State} (h : s.status = .running) : StatusTrue s := by
  rw [StatusTrue, h]
  trivial

theorem statusTrue_takeFault {f : Fault} {s : State} (h : FaultShown f s) : StatusTrue (takeFault f s) := h

/-- A fault before the instruction is shown by the state the front end left (R112, R201, R202, R224). -/
theorem frontEnd_raised_shown {s u : State} {f : Fault} (hc : s.env.config.Legal) (h : frontEnd s = .raised f u) :
    FaultShown f u := by
  obtain ⟨w, hw⟩ := frontEnd_cases s
  have hu := (frontEnd_raised_frame h).config
  rw [h] at hw
  cases hw with
  | entryFault f hp =>
    obtain ⟨rfl, hsp⟩ := (poll_frame s).fault hc f u hp
    exact hsp
  | fetchFault _ hpc => exact ⟨rfl, hpc⟩
  | decodeError e _ _ hd =>
    rw [← hu] at hc
    obtain ⟨hne, rfl⟩ := (decode_eq_error_iff hc.opcLegal).mp hd
    by_cases halu : opIsAlu (u.mem.read u.pc.toNat) = true
    · rw [if_pos halu]
      exact ⟨rfl, halu, hne⟩
    · rw [if_neg halu]
      exact ⟨rfl, Bool.eq_false_of_not_eq_true halu, hne⟩

/-- R85: the byte at `PC` is the opcode of the instruction read there. -/
theorem opcode_of_decodeAt {u : State} {i : Instr} (hc : u.env.config.Legal) (hd : decodeAt u = .ok i) :
    u.env.config.opc i.mnemonic = u.mem.read u.pc.toNat := by
  obtain ⟨m, hm, rfl⟩ := (decode_eq_ok_iff hc.opcLegal).mp hd
  rwa [Mnemonic.mnemonic_withOperands]

/-- R80: the operand bytes of the instruction at `PC` are among the two bytes after its opcode. -/
theorem mem_operands_of_decodeAt {u : State} {i : Instr} (hc : u.env.config.Legal) (hd : decodeAt u = .ok i) {r : Byte}
    (hr : r ∈ i.operandBytes) : r = u.mem.read (u.pc.toNat + 1) ∨ r = u.mem.read (u.pc.toNat + 2) := by
  obtain ⟨m, -, rfl⟩ := (decode_eq_ok_iff hc.opcLegal).mp hd
  rw [Mnemonic.operandBytes_withOperands] at hr
  simpa using List.mem_of_mem_take hr

/-- A fault with a cause is shown by the state its instruction runs in, since the instruction is the one at `PC`. -/
theorem FaultCause.shown {f : Fault} {i : Instr} {u : State} (h : FaultCause f i u) (hc : u.env.config.Legal)
    (hd : decodeAt u = .ok i) : FaultShown f u := by
  cases f with
  | unsupportedInstruction op | unsupportedOperation op => exact h.elim
  | divisionByZero p =>
    obtain ⟨hp, a, q, rfl, hq⟩ := h
    obtain ⟨m, hm, hi⟩ := (decode_eq_ok_iff hc.opcLegal).mp hd
    obtain rfl : m = .div := (Mnemonic.mnemonic_withOperands m _ _).symm.trans (congrArg Instr.mnemonic hi)
    exact ⟨hp, hm.symm, q, (Instr.div.inj hi).2, hq⟩
  | outOfRange loc =>
    cases loc with
    | mem a => exact h.elim
    | reg a => exact ⟨h.1, mem_operands_of_decodeAt hc hd (Instr.regOperands_subset_operandBytes i h.2)⟩
    | stackPush => exact h.1
    | stackPop => exact h.1

/-- Every way a running cycle can end after its instruction shows a truthful status. -/
theorem statusTrue_afterExec {u v : State} {i : Instr} (hc : u.env.config.Legal) (hs : u.status = .running)
    (hd : decodeAt u = .ok i) (he : exec i u = .next v) : StatusTrue (advance (u.mem.read u.pc.toNat) v) := by
  by_cases hi : i = .iret
  · subst hi
    obtain ⟨-, -, henv, ⟨hst, -⟩ | ⟨hst, hsp, -⟩⟩ := iret_cases he
    · exact .of_running (by rw [advance_status, hst, hs])
    · rw [advance_of_faulted hst, StatusTrue, hst]
      simpa [FaultShown, henv] using hsp
  cases exec_cases hi he with
  | faulted f ht hcause =>
    subst ht
    rw [advance_of_faulted rfl]
    exact statusTrue_takeFault (hcause.shown hc hd)
  | halted hhlt ht =>
    subst hhlt ht
    have hop : u.env.config.opc .hlt = u.mem.read u.pc.toNat := opcode_of_decodeAt hc hd
    rw [← hop, advance_hlt hc.opcLegal]
    simpa [StatusTrue] using hop.symm
  | wroteReg _ _ ht | wroteFlags _ _ ht | stored _ _ _ ht | emitted _ _ ht | didPush _ _ _ ht | didPop _ _ _ ht
  | called _ _ _ ht | returned _ _ ht | jumped _ _ ht | skipped _ _ ht =>
    subst ht
    exact .of_running ((advance_status _ _).trans hs)

/-- Settles O3: the three ways a step can end; configuration and canonical memory by the frames of front end and
instruction, the status by what a fault shows and by the byte a `HLT` was read from. -/
theorem stepKeepsInvariant : Obligations.StepKeepsInvariant := by
  rintro s t ⟨hc, hwf, htrue⟩ h
  cases step_cases h with
  | stopped _ ht =>
    subst ht
    exact ⟨hc, hwf, htrue⟩
  | faulted _ f u hf ht =>
    subst ht
    have hframe := frontEnd_raised_frame hf
    exact ⟨by rwa [takeFault_env, hframe.config], hframe.wf hwf, statusTrue_takeFault (frontEnd_raised_shown hc hf)⟩
  | ran hs op i u v hf he ht =>
    subst ht
    have hframe := frontEnd_ok_frame hf
    obtain ⟨-, -, rfl, hd⟩ := frontEnd_ok hf
    have hu : u.env.config.Legal := by rwa [hframe.config]
    refine ⟨?_, ?_, statusTrue_afterExec hu (hframe.status.trans hs) hd he⟩
    · rwa [advance_env, exec_env he]
    · rw [advance_mem]
      exact exec_wf he (hframe.wf hwf)

end Sys2Proof.Machine
end

section
/-! SUPPORT. One cycle, run forwards (40_cycle.md R110 to R122): the front end by how step 1, fetch and decoding end, the
step that follows from it, and where `PC` stands afterwards. -/

namespace Sys2Proof.Machine

/-! ## The front end (R110, R112, R113) -/

theorem frontEnd_of_entryFault {s t : State} {f : Fault} (h : pollInterrupts s = .raised f t) :
    frontEnd s = .raised f t := by
  rw [frontEnd_eq, h, Res.bind_raised]

theorem frontEnd_of_fetchFault {s t : State} (h : pollInterrupts s = .ok () t) (hpc : 254 ≤ t.pc.toNat) :
    frontEnd s = .raised (.outOfRange (.mem 256)) t := by
  rw [frontEnd_eq, h, Res.bind_ok, fetch_top hpc, Res.bind_raised]

/-- From 253 or below the fetch succeeds, and only decoding is left. -/
theorem frontEnd_of_fetch {s t : State} (h : pollInterrupts s = .ok () t) (hpc : t.pc.toNat ≤ 253) : frontEnd s =
    (decodeFetched t.env.config ⟨t.mem.read t.pc.toNat, t.mem.read (t.pc.toNat + 1), t.mem.read (t.pc.toNat + 2)⟩ t).bind
      fun i u => .ok (t.mem.read t.pc.toNat, i) u := by
  rw [frontEnd_eq, h, Res.bind_ok, fetch_ok hpc, Res.bind_ok, poll_config h]

theorem frontEnd_of_ok {s t : State} {i : Instr} (h : pollInterrupts s = .ok () t) (hpc : t.pc.toNat ≤ 253)
    (hd : decodeAt t = .ok i) : frontEnd s = .ok (t.mem.read t.pc.toNat, i) t := by
  unfold decodeAt at hd
  simp only [frontEnd_of_fetch h hpc, decodeFetched, hd, Res.bind_ok]

theorem frontEnd_of_decodeError {s t : State} {e : DecodeError} (h : pollInterrupts s = .ok () t)
    (hpc : t.pc.toNat ≤ 253) (hd : decodeAt t = .error e) : frontEnd s = .raised (decodeFault e) t := by
  unfold decodeAt at hd
  simp only [frontEnd_of_fetch h hpc, decodeFetched, hd, Res.bind_raised]

theorem step_of_frontEnd_ok {s t : State} {op : Byte} {i : Instr} (hs : s.status = .running)
    (h : frontEnd s = .ok (op, i) t) : step s = afterExec op (exec i t) := by
  rw [step_of_frontEnd hs, h]

theorem step_of_frontEnd_raised {s t : State} {f : Fault} (hs : s.status = .running) (h : frontEnd s = .raised f t) :
    step s = .next (takeFault f t) := by
  rw [step_of_frontEnd hs, h]

/-- With no input and no line pending and enabled, step 1 only takes the input. -/
theorem pollInterrupts_quiet {s : State} (hin : currentInput s = quietInput) (hline : serviceable s = 0#8) :
    pollInterrupts s = .ok () (sampled s) := by
  have hlatch : latchKey s.env.config (currentInput s).key (latchTimer (currentInput s).tick (sampled s)) =
      .ok () (sampled s) := by rw [hin]; rfl
  rw [pollInterrupts_eq_service hlatch]
  exact service_of_none hline

/-- Settles O40: the front end delivers the decoded instruction, and the cycle runs it. -/
theorem stepRunsTheDecodedInstruction : Obligations.StepRunsTheDecodedInstruction := by
  refine ⟨fun s t i hs hp hpc hd => ?_, fun s => pollInterrupts_quiet⟩
  rw [← poll_config hp] at hd
  exact step_of_frontEnd_ok hs (frontEnd_of_ok hp hpc hd)

theorem afterExec_is_next (op : Byte) (i : Instr) (s : State) : ∃ t, afterExec op (exec i s) = .next t := by
  obtain ⟨t, ht⟩ := exec_is_next i s
  exact ⟨advance op t, by rw [ht, afterExec]⟩

theorem cycle_is_next (inp : Input) (s : State) : ∃ t, cycle inp s = .next t := by
  unfold cycle
  split
  · exact afterExec_is_next _ _ _
  · exact ⟨_, rfl⟩

/-- Settles O41: a running machine's cycle answers a next state, and a stopped machine stays as it is. -/
theorem stepIsTotalAndAStoppedMachineStays : Obligations.StepIsTotalAndAStoppedMachineStays := by
  refine ⟨fun s => ?_, fun s => step_stopped⟩
  by_cases hs : s.status = .running
  · rw [step_running hs]
    exact cycle_is_next _ _
  · exact ⟨s, step_stopped hs⟩

/-- Settles O42: the three ways the front end can raise a fault, in the order of the cycle. -/
theorem faultsBeforeExecutionStopTheCycle : Obligations.FaultsBeforeExecutionStopTheCycle := by
  intro s hs
  refine ⟨fun f t hp => ?entry, fun t hp hpc => ?fetch, fun t hp hpc hne => ?decode⟩
  case entry => exact ⟨step_of_frontEnd_raised hs (frontEnd_of_entryFault hp), (poll_frame s).pcAtFault f t hp⟩
  case fetch => exact step_of_frontEnd_raised hs (frontEnd_of_fetchFault hp hpc)
  case decode =>
    rw [← poll_config hp] at hne
    have hd := decode_of_decodeOpcode_error (decodeOpcode_unmatched hne) (t.mem.read (t.pc.toNat + 1))
      (t.mem.read (t.pc.toNat + 2))
    rw [step_of_frontEnd_raised hs (frontEnd_of_decodeError hp hpc hd), apply_ite decodeFault]
    rfl

/-! ## `PC` after a cycle (R118 to R120) -/

/-- A step from its instruction: what the instruction leaves, advanced. -/
theorem exists_advance_of_step {s t u : State} {op : Byte} {i : Instr} (hs : s.status = .running)
    (hf : frontEnd s = .ok (op, i) t) (h : step s = .next u) : ∃ v, exec i t = .next v ∧ advance op v = u := by
  obtain ⟨v, hv⟩ := exec_is_next i t
  rw [step_of_frontEnd_ok hs hf, hv, afterExec] at h
  exact ⟨v, hv, Host.Outcome.next.inj h⟩

/-- R87, R118: an instruction with bit 4 clear leaves `PC` to the engine. -/
theorem exec_pc_of_not_setter {i : Instr} {s t : State} (h : exec i s = .next t) (hi : i.mnemonic ∉ pcSetters) :
    t.pc = s.pc := by
  have hiret : i ≠ .iret := by
    rintro rfl
    exact hi (by decide)
  cases exec_cases hiret h with
  | called _ hcall =>
    subst hcall
    simp [Instr.mnemonic, pcSetters] at hi
  | returned hret =>
    subst hret
    simp [Instr.mnemonic, pcSetters] at hi
  | jumped _ hjump => obtain rfl | ⟨rfl, -⟩ | ⟨rfl, -⟩ := hjump <;> simp [Instr.mnemonic, pcSetters] at hi
  | skipped _ hskip => obtain ⟨rfl, -⟩ | ⟨rfl, -⟩ := hskip <;> simp [Instr.mnemonic, pcSetters] at hi
  | faulted _ ht | wroteReg _ _ ht | wroteFlags _ _ ht | stored _ _ _ ht | emitted _ _ ht | didPush _ _ _ ht
  | didPop _ _ _ ht | halted _ ht => rw [ht]; rfl

theorem encode_length (opc : Mnemonic → Byte) (i : Instr) : (encode opc i).length = 1 + i.mnemonic.operands := by
  cases i <;> rfl

/-- A jump that does not fault had a register to go to. -/
theorem jumpTo_pc {a : Byte} {s t : State} (h : (jumpTo a s).outcome = .next t) (hok : t.isFaulted = false) :
    ∃ r, a = regOp r ∧ t.pc = s.reg r := by
  obtain ⟨r, rfl⟩ | ha := operand_cases a
  · rw [outcome_jumpTo_ok] at h
    obtain rfl := Host.Outcome.next.inj h
    exact ⟨r, rfl, rfl⟩
  · rw [outcome_jumpTo_high ha] at h
    obtain rfl := Host.Outcome.next.inj h
    cases hok

theorem skipTwo_pc {s t : State} (h : (skipTwo s).outcome = .next t) : t.pc.toNat = (s.pc.toNat + 2) % 256 := by
  obtain rfl := Host.Outcome.next.inj h
  exact toNat_add_two s.pc

/-- A call that does not fault goes to its register as it is after the push (the spec's decision D12). -/
theorem call_pc {a : Byte} {s t : State} (h : exec (.call a) s = .next t) (hok : t.isFaulted = false) :
    ∃ r, a = regOp r ∧ t.pc = if r = SP then s.reg SP - 1#8 else s.reg r := by
  obtain ⟨r, rfl⟩ | ha := operand_cases a
  · by_cases h0 : s.reg 7 = 0#8
    · rw [exec_call_full h0] at h
      obtain rfl := Host.Outcome.next.inj h
      cases hok
    · rw [exec_call_regOp h0] at h
      obtain rfl := Host.Outcome.next.inj h
      exact ⟨r, rfl, pushed_reg _ _ _⟩
  · rw [exec_call_high ha] at h
    obtain rfl := Host.Outcome.next.inj h
    cases hok

theorem ret_pc {s t : State} (h : exec .ret s = .next t) (hok : t.isFaulted = false) :
    t.pc = s.mem.read (s.reg 7).toNat := by
  by_cases hsp : (s.reg 7).toNat < s.env.config.spInit.toNat
  · rw [exec_ret_ok hsp] at h
    obtain rfl := Host.Outcome.next.inj h
    rfl
  · rw [exec_ret_empty (Nat.not_lt.mp hsp)] at h
    obtain rfl := Host.Outcome.next.inj h
    cases hok

theorem iret_pc {s t : State} (h : exec .iret s = .next t) (hok : t.isFaulted = false) :
    t.pc = s.mem.read ((s.reg 7).toNat + 8) := by
  obtain ⟨-, -, -, ⟨-, -, hpc⟩ | ⟨hst, -⟩⟩ := iret_cases h
  · exact hpc
  · simp [State.isFaulted, hst] at hok

/-- Settles O43: the six instructions that set `PC` themselves by their own rules, the others by step 4. -/
theorem pcAfterACycleFollowsTheTable : Obligations.PcAfterACycleFollowsTheTable := by
  intro s t u op i hc hs hf h hok
  have hframe := frontEnd_ok_frame hf
  obtain ⟨-, -, rfl, hd⟩ := frontEnd_ok hf
  obtain ⟨v, hv, hadv⟩ := exists_advance_of_step hs hf h
  have hopcode : s.env.config.opc i.mnemonic = t.mem.read t.pc.toNat := by
    rw [← hframe.config] at hc ⊢
    exact opcode_of_decodeAt hc hd
  rw [← hopcode] at hadv
  have hvok : v.isFaulted = false := by
    rw [← hadv] at hok
    simpa [State.isFaulted] using hok
  have hset (hm : i.mnemonic ∈ pcSetters) : v = u := by rw [← hadv, advance_of_setter hc.opcLegal hm]
  have hadvance (hm : i.mnemonic ∉ pcSetters) :
      u.pc.toNat = (t.pc.toNat + (encode s.env.config.opc i).length) % 256 := by
    rw [← hadv, advance_of_not_setter hc.opcLegal hm hvok, setPc_pc, exec_pc_of_not_setter hv hm, encode_length,
      BitVec.toNat_add, BitVec.toNat_ofNat, Nat.add_mod_mod]
  cases i with
  | jmp a =>
    obtain rfl := hset (by simp [Instr.mnemonic, pcSetters])
    exact jumpTo_pc hv hok
  | jeq a =>
    obtain rfl := hset (by simp [Instr.mnemonic, pcSetters])
    cases hE : flagE t.fl with
    | true => simpa [hE] using jumpTo_pc (exec_jeq_taken hE ▸ hv) hok
    | false => simpa [hE] using skipTwo_pc (exec_jeq_not_taken hE ▸ hv)
  | jne a =>
    obtain rfl := hset (by simp [Instr.mnemonic, pcSetters])
    cases hE : flagE t.fl with
    | true => simpa [hE] using skipTwo_pc (exec_jne_not_taken hE ▸ hv)
    | false => simpa [hE] using jumpTo_pc (exec_jne_taken hE ▸ hv) hok
  | call a =>
    obtain rfl := hset (by simp [Instr.mnemonic, pcSetters])
    exact call_pc hv hok
  | ret =>
    obtain rfl := hset (by decide)
    exact ret_pc hv hok
  | iret =>
    obtain rfl := hset (by decide)
    exact iret_pc hv hok
  | _ => exact hadvance (by simp [Instr.mnemonic, pcSetters])

end Sys2Proof.Machine
end

section
/-! SUPPORT. Steps and their surroundings (10_state.md R38, R40; 40_cycle.md R122): earlier output and later inputs play no
part in a step, the step is the spec's function of configuration, state and inputs, and every choice of inputs is a run. -/

namespace Sys2Proof.Machine

/-! ## A step in other surroundings -/

/-- A running machine's step commutes with a change of earlier output and of the inputs to come that leaves the cycle's
own input. -/
theorem step_reseat {s s' t : State} {e : List Event} {ins : List Input} {n : Nat} (hs : s.status = .running)
    (h : step s = .next t) (hs' : s'.status = .running) (hin : currentInput s' = currentInput s)
    (hsam : sampled s' = (sampled s).reseat e ins n) : step s' = .next (t.reseat e ins n) := by
  rw [step_running hs] at h
  rw [step_running hs', hin, hsam, cycle_reseat, h]
  rfl

/-- Settles O51: the state with earlier output is the state reseated, and so is its successor. -/
theorem consoleDoesNotInfluenceTheMachine : Obligations.ConsoleDoesNotInfluenceTheMachine := by
  intro s t earlier h
  by_cases hs : s.status = .running
  · have hstep := step_reseat (s' := { s with console := earlier ++ s.console }) (e := earlier)
      (ins := (sampled s).env.inputs) (n := (sampled s).env.drawn) hs h hs rfl rfl
    rw [← step_env_of_running h hs] at hstep
    exact hstep
  · rw [step_eq_self_of_stopped h hs]
    exact step_stopped hs

/-- Settles O52: the state with other later inputs samples the same input, and the rest is the state reseated. -/
theorem laterInputsDoNotInfluenceACycle : Obligations.LaterInputsDoNotInfluenceACycle := by
  intro s t now later other hs hin h
  have hcur : currentInput s = now := by rw [currentInput, hin]
  have hstep := step_reseat (s' := { s with env := { s.env with inputs := now :: other } }) (e := []) (ins := other)
    (n := (sampled s).env.drawn) hs h hs hcur.symm rfl
  rw [← step_env_of_running h hs] at hstep
  exact hstep

/-! ## The step of the spec (R122) -/

theorem stepOn_of_running {inp : Input} {s : State} (h : s.status = .running) : stepOn inp s = cycle inp s := by
  rw [stepOn, h]

theorem stepOn_of_stopped {inp : Input} {s : State} (h : s.status ≠ .running) : stepOn inp s = .next s := by
  unfold stepOn
  split
  · next hrun => exact absurd hrun h
  · rfl
  · rfl

/-- No cycle ends in a fault or a refusal of the host's interface, so `stepWith` is `stepOn` with the arguments of R122. -/
theorem stepOn_eq_next_stepWith (c : Config) (s : State) (inp : Input) :
    stepOn inp (s.withConfig c) = .next (stepWith c s inp.tick inp.key) := by
  have hnext : ∃ t, stepOn inp (s.withConfig c) = .next t := by
    by_cases hs : (s.withConfig c).status = .running
    · rw [stepOn_of_running hs]
      exact cycle_is_next inp _
    · exact ⟨_, stepOn_of_stopped hs⟩
  obtain ⟨t, ht⟩ := hnext
  rw [stepWith, ht]

theorem stepWith_of_stopped {c : Config} {s : State} (inp : Input) (h : s.status ≠ .running) :
    stepWith c s inp.tick inp.key = s.withConfig c := by
  have hstep := stepOn_eq_next_stepWith c s inp
  rw [stepOn_of_stopped (s := s.withConfig c) h] at hstep
  exact (Host.Outcome.next.inj hstep).symm

/-- R38: the step of a running machine is the spec's at the configuration and the input the state supplies. -/
theorem step_eq_next_stepWith {s : State} (h : s.status = .running) : step s =
    .next (stepWith s.env.config (sampled s) (currentInput s).tick (currentInput s).key) := by
  rw [← stepOn_eq_next_stepWith s.env.config (sampled s) (currentInput s), step_running h]
  exact (stepOn_of_running (s := sampled s) h).symm

/-- The spec's own part of a state is the state reseated with no earlier output and nothing to come. -/
theorem machine_eq_reseat (s : State) : s.machine = s.reseat [] [] 0 := rfl

/-- The spec's own part of the result is the result on the spec's own part. -/
theorem stepOn_machine (c : Config) (s : State) (inp : Input) :
    stepOn inp (s.withConfig c).machine = .next (stepWith c s inp.tick inp.key).machine := by
  rw [machine_eq_reseat, stepOn_reseat, stepOn_eq_next_stepWith]
  rfl

theorem stepWith_machine_congr {c : Config} {s t : State} (inp : Input)
    (h : (s.withConfig c).machine = (t.withConfig c).machine) :
    (stepWith c s inp.tick inp.key).machine = (stepWith c t inp.tick inp.key).machine := by
  have hs := stepOn_machine c s inp
  rw [h, stepOn_machine c t inp] at hs
  exact (Host.Outcome.next.inj hs).symm

/-- Settles O54: the three clauses are the step of a running machine, that of a stopped one, and the congruence for the
spec's own part. -/
theorem stepIsTheStepOfTheSpec : Obligations.StepIsTheStepOfTheSpec :=
  ⟨fun _ => step_eq_next_stepWith, fun _ _ tick key => stepWith_of_stopped ⟨tick, key⟩,
    fun _ _ _ tick key => stepWith_machine_congr ⟨tick, key⟩⟩

/-! ## Runs -/

theorem runWith_of_stopped (choice : Nat → Input) (n : Nat) {s : State} (h : s.status ≠ .running) :
    runWith s.env.config choice n s = s := by
  induction n generalizing choice with
  | zero => rfl
  | succ n ih =>
    rw [runWith, stepWith_of_stopped (choice 0) h, withConfig_self]
    exact ih _

theorem stepMany_of_stopped (n : Nat) {s : State} (h : s.status ≠ .running) : stepMany n s = .next s := by
  induction n with
  | zero => rfl
  | succ n ih =>
    rw [stepMany, step_stopped h]
    exact ih

/-- Two states that agree in the spec's own part have runs that do. -/
theorem runWith_machine_congr {c : Config} (choice : Nat → Input) (n : Nat) {s t : State} (h : s.machine = t.machine) :
    (runWith c choice n s).machine = (runWith c choice n t).machine := by
  induction n generalizing choice s t with
  | zero => exact h
  | succ n ih =>
    rw [runWith, runWith]
    exact ih _ (stepWith_machine_congr (choice 0) (congrArg (·.withConfig c) h))

/-- Settles O56, by induction on the number of cycles: a running machine takes the first listed choice, a stopped one
stays. -/
theorem everyChoiceOfInputsIsARun : Obligations.EveryChoiceOfInputsIsARun := by
  intro s choice n later
  induction n generalizing s choice with
  | zero => exact fun _ => ⟨s, rfl, rfl⟩
  | succ n ih =>
    intro hin
    by_cases hs : s.status = .running
    case neg => exact ⟨s, stepMany_of_stopped _ hs, by rw [runWith_of_stopped choice _ hs]⟩
    rw [List.range_succ_eq_map, List.map_cons, List.cons_append, List.map_map] at hin
    have hcur : currentInput s = choice 0 := by rw [currentInput, hin]
    have hstep := step_eq_next_stepWith hs
    rw [hcur] at hstep
    have henv := step_env_of_running hstep hs
    obtain ⟨t, ht, hmachine⟩ := ih _ (fun k => choice (k + 1)) (by rw [henv, sampled_inputs, hin]; rfl)
    refine ⟨t, by rw [stepMany, hstep]; exact ht, ?_⟩
    rw [hmachine, henv, sampled_config, runWith]
    exact runWith_machine_congr _ n (stepWith_machine_congr (choice 0) rfl)

/-! ## The invariant along runs -/

/-- The invariant says nothing of output and of inputs to come. -/
theorem inv_reseat_iff (s : State) (e : List Event) (ins : List Input) (n : Nat) : (s.reseat e ins n).Inv ↔ s.Inv :=
  Iff.rfl

/-- One step of the spec keeps the invariant: it is a step of the model on the state with its inputs listed. -/
theorem stepWith_inv {s : State} (inp : Input) (h : s.Inv) : (stepWith s.env.config s inp.tick inp.key).Inv := by
  by_cases hs : s.status = .running
  case neg =>
    rw [stepWith_of_stopped inp hs]
    exact h
  have hstep := step_eq_next_stepWith (s := s.reseat [] [inp] 0) hs
  have hinv := stepKeepsInvariant _ _ ((inv_reseat_iff s [] [inp] 0).mpr h) hstep
  have hsame := stepWith_machine_congr (c := s.env.config) (s := s) (t := sampled (s.reseat [] [inp] 0)) inp rfl
  rw [machine_eq_reseat, machine_eq_reseat] at hsame
  rw [← inv_reseat_iff _ [] [] 0, hsame]
  exact hinv

theorem stepWith_config (c : Config) (s : State) (inp : Input) : (stepWith c s inp.tick inp.key).env.config = c := by
  by_cases hs : s.status = .running
  case neg => rw [stepWith_of_stopped inp hs, withConfig_config]
  have hstep := step_eq_next_stepWith (s := (s.withConfig c).reseat [] [inp] 0) hs
  have hsame := stepWith_machine_congr (c := c) (s := s) (t := sampled ((s.withConfig c).reseat [] [inp] 0)) inp rfl
  have hconfig := congrArg (fun u => u.env.config) hsame
  exact hconfig.trans (configurationNeverChanges _ _ hstep)

/-- Settles O55, by induction on the number of cycles: each keeps the invariant and the configuration. -/
theorem everyRunKeepsTheInvariant : Obligations.EveryRunKeepsTheInvariant := by
  intro s choice n
  induction n generalizing s choice with
  | zero => exact fun h => h
  | succ n ih =>
    intro h
    have hnext := ih _ (fun k => choice (k + 1)) (stepWith_inv (choice 0) h)
    rwa [stepWith_config] at hnext

end Sys2Proof.Machine
end

section
/-! SUPPORT. Which instructions look at `FL` (10_state.md R30): every shared operation, and with them every instruction
that does not write `FL`, commutes with a change of the flags; `JEQ` and `JNE` do when bit 0 stays, and `CMP` and a
finished `IRET` overwrite all three bits. -/

namespace Sys2Proof.Machine

section
variable {α β : Type} {o : FlagBits}

/-- A result with other flags in its state. -/
def Res.withFl (o : FlagBits) (r : Res α) : Res α :=
  match r with
  | .ok v s => .ok v (setFl o s)
  | .raised f s => .raised f (setFl o s)

/-- Sequencing: if the first part commutes with a change of the flags and the rest does, the whole does. -/
theorem Res.bind_setFl {r r' : Res α} {k : α → State → Res β} (h : r' = r.withFl o)
    (hk : ∀ v s, k v (setFl o s) = (k v s).withFl o) : r'.bind k = (r.bind k).withFl o := by
  subst h
  cases r with
  | ok v s => exact hk v s
  | raised f s => rfl

/-! ## Operations -/

theorem checkReg_setFl (a : Byte) (s : State) : checkReg a (setFl o s) = (checkReg a s).withFl o := by
  unfold checkReg
  split <;> rfl

theorem readReg_setFl (a : Byte) (s : State) : readReg a (setFl o s) = (readReg a s).withFl o :=
  Res.bind_setFl (checkReg_setFl a s) fun _ _ => rfl

theorem writeReg_setFl (a v : Byte) (s : State) : writeReg a v (setFl o s) = (writeReg a v s).withFl o :=
  Res.bind_setFl (checkReg_setFl a s) fun _ _ => rfl

theorem stackDown_setFl (s : State) : stackDown (setFl o s) = (stackDown s).withFl o := by
  unfold stackDown
  rw [setFl_reg]
  split <;> rfl

theorem memWrite_setFl (a : Nat) (v : Byte) (s : State) : memWrite a v (setFl o s) = (memWrite a v s).withFl o := by
  unfold memWrite
  split <;> rfl

theorem memRead_setFl (a : Nat) (s : State) : memRead a (setFl o s) = (memRead a s).withFl o := by
  unfold memRead
  split <;> rfl

theorem push_setFl (v : Byte) (s : State) : push v (setFl o s) = (push v s).withFl o :=
  Res.bind_setFl (stackDown_setFl s) fun _ u => memWrite_setFl _ v u

theorem stackTop_setFl (c : Config) (s : State) : stackTop c (setFl o s) = (stackTop c s).withFl o := by
  unfold stackTop
  rw [setFl_reg, memRead_setFl]
  split <;> rfl

theorem pop_setFl (c : Config) (s : State) : pop c (setFl o s) = (pop c s).withFl o :=
  Res.bind_setFl (stackTop_setFl c s) fun _ _ => rfl

theorem onTwoRegs_setFl (f : Byte → Byte → Byte) (a b : Byte) (s : State) :
    onTwoRegs f a b (setFl o s) = (onTwoRegs f a b s).withFl o :=
  Res.bind_setFl (readReg_setFl a s) fun _ u => Res.bind_setFl (readReg_setFl b u) fun _ w => writeReg_setFl a _ w

theorem onOneReg_setFl (f : Byte → Byte) (a : Byte) (s : State) :
    onOneReg f a (setFl o s) = (onOneReg f a s).withFl o :=
  Res.bind_setFl (readReg_setFl a s) fun _ u => writeReg_setFl a _ u

theorem onRegAndCount_setFl (f : Byte → Nat → Byte) (a n : Byte) (s : State) :
    onRegAndCount f a n (setFl o s) = (onRegAndCount f a n s).withFl o :=
  Res.bind_setFl (readReg_setFl a s) fun _ u => writeReg_setFl a _ u

theorem jumpTo_setFl (a : Byte) (s : State) : jumpTo a (setFl o s) = (jumpTo a s).withFl o :=
  Res.bind_setFl (readReg_setFl a s) fun _ _ => rfl

/-! ## Instructions -/

theorem outcome_setFl {r r' : Res Unit} {t : State} (hr : r' = r.withFl o) (h : r.outcome = .next t) :
    r'.outcome = .next (setFl o t) := by
  subst hr
  cases r <;> (obtain rfl := Host.Outcome.next.inj h; rfl)

/-- An instruction that does not write `FL` does the same with other flags, provided a conditional jump finds bit 0 as it
was, and leaves those other flags. -/
theorem exec_setFl {i : Instr} {s t : State} (h : exec i s = .next t) (hw : i.writesFlags = false)
    (hE : flagE o = flagE s.fl ∨ ∀ a, i ≠ .jeq a ∧ i ≠ .jne a) : exec i (setFl o s) = .next (setFl o t) := by
  cases i with
  | cmp | iret => cases hw
  | add | sub | mul | and | or | xor => exact outcome_setFl (onTwoRegs_setFl _ _ _ s) h
  | inc | dec | not => exact outcome_setFl (onOneReg_setFl _ _ s) h
  | shl | shr => exact outcome_setFl (onRegAndCount_setFl _ _ _ s) h
  | div a b =>
    refine outcome_setFl (Res.bind_setFl (readReg_setFl a s) fun p u => Res.bind_setFl (readReg_setFl b u) fun q w => ?_) h
    rw [writeReg_setFl]
    split <;> rfl
  | hlt =>
    obtain rfl := Host.Outcome.next.inj h
    rfl
  | ret => exact outcome_setFl (Res.bind_setFl (pop_setFl _ s) fun _ _ => rfl) h
  | push a =>
    exact outcome_setFl (Res.bind_setFl (checkReg_setFl a s) fun _ u => Res.bind_setFl (stackDown_setFl u) fun _ w =>
      memWrite_setFl _ _ w) h
  | pop a =>
    exact outcome_setFl (Res.bind_setFl (checkReg_setFl a s) fun _ u => Res.bind_setFl (stackTop_setFl _ u) fun _ _ =>
      rfl) h
  | prn a | pra a => exact outcome_setFl (Res.bind_setFl (readReg_setFl a s) fun _ _ => rfl) h
  | call a =>
    exact outcome_setFl (Res.bind_setFl (checkReg_setFl a s) fun _ u => Res.bind_setFl (push_setFl _ u) fun _ _ => rfl) h
  | jmp a => exact outcome_setFl (jumpTo_setFl a s) h
  | jeq a =>
    have hE0 : flagE (setFl o s).fl = flagE s.fl := hE.resolve_right fun hne => (hne a).1 rfl
    cases hs : flagE s.fl with
    | true =>
      rw [exec_jeq_taken hs] at h
      rw [exec_jeq_taken (hE0.trans hs)]
      exact outcome_setFl (jumpTo_setFl a s) h
    | false =>
      rw [exec_jeq_not_taken hs] at h
      rw [exec_jeq_not_taken (hE0.trans hs)]
      exact outcome_setFl rfl h
  | jne a =>
    have hE0 : flagE (setFl o s).fl = flagE s.fl := hE.resolve_right fun hne => (hne a).2 rfl
    cases hs : flagE s.fl with
    | false =>
      rw [exec_jne_taken hs] at h
      rw [exec_jne_taken (hE0.trans hs)]
      exact outcome_setFl (jumpTo_setFl a s) h
    | true =>
      rw [exec_jne_not_taken hs] at h
      rw [exec_jne_not_taken (hE0.trans hs)]
      exact outcome_setFl rfl h
  | ldi a imm => exact outcome_setFl (writeReg_setFl a imm s) h
  | ld a b =>
    exact outcome_setFl (Res.bind_setFl (Res.bind_setFl (readReg_setFl b s) fun _ u => memRead_setFl _ u) fun _ u =>
      writeReg_setFl a _ u) h
  | st a b =>
    exact outcome_setFl (Res.bind_setFl (readReg_setFl a s) fun _ u => Res.bind_setFl (readReg_setFl b u) fun _ w =>
      memWrite_setFl _ _ w) h

/-- `CMP` overwrites whatever flags it finds, unless an operand is illegal. -/
theorem exec_cmp_setFl {a b : Byte} {s t : State} (hs : s.status = .running) (h : exec (.cmp a b) s = .next t) :
    exec (.cmp a b) (setFl o s) = .next (setFl (if t.isFaulted then o else t.fl) t) := by
  obtain ⟨r, rfl⟩ | ha := operand_cases a
  · obtain ⟨q, rfl⟩ | hb := operand_cases b
    · rw [exec_cmp_regOp] at h
      obtain rfl := Host.Outcome.next.inj h
      have hok (fl : FlagBits) : (setFl fl s).isFaulted = false := isFaulted_of_running hs
      rw [exec_cmp_regOp, hok]
      rfl
    · rw [exec_cmp_highB hb] at h
      obtain rfl := Host.Outcome.next.inj h
      exact exec_cmp_highB hb r
  · rw [exec_cmp_highA ha] at h
    obtain rfl := Host.Outcome.next.inj h
    exact exec_cmp_highA ha

/-- An `IRET` with nine bytes to pop takes nothing from the flags it finds. -/
theorem exec_iret_setFl {s : State} (h9 : (s.reg 7).toNat + 9 ≤ s.env.config.spInit.toNat) :
    exec .iret (setFl o s) = exec .iret s := by
  obtain ⟨t, ht, hreg, hfl, hpc, hsp, hmem, hst, hcon, henv⟩ := iret_finishes h9
  obtain ⟨u, hu, hureg, hufl, hupc, husp, humem, hust, hucon, huenv⟩ := iret_finishes (s := setFl o s) h9
  have hsame : u = t := by
    refine State.ext_of (fun r => ?_) (hupc.trans hpc.symm) (hufl.trans hfl.symm) (humem.trans hmem.symm)
      (hust.trans hst.symm) (hucon.trans hcon.symm) (huenv.trans henv.symm)
    by_cases hr : r = 7
    · subst hr
      exact BitVec.eq_of_toNat_eq (husp.trans hsp.symm)
    · exact (hureg r hr).trans (hreg r hr).symm
  rw [hu, ht, hsame]

end

/-- Settles O45: an instruction that does not write `FL` keeps the other flags, `CMP` and `IRET` overwrite them. -/
theorem onlyConditionalJumpsReadTheFlags : Obligations.OnlyConditionalJumpsReadTheFlags := by
  intro i s t other hs h hE h9
  cases hw : i.writesFlags with
  | false => exact exec_setFl h hw hE
  | true =>
    cases i with
    | cmp a b =>
      rw [exec_cmp_setFl hs h]
      cases t.isFaulted <;> rfl
    | iret =>
      obtain ⟨u, hu, -, -, -, -, -, hst, -⟩ := iret_finishes (h9 rfl)
      obtain rfl := Host.Outcome.next.inj (hu.symm.trans h)
      rw [exec_iret_setFl (h9 rfl), h, isFaulted_of_running (hst.trans hs)]
      rfl
    | _ => cases hw

end Sys2Proof.Machine
end

section
/-! SUPPORT. Reset, the host's word and the fault trace (70_reset_and_hazards.md section 1, 30_encoding.md R80,
60_exceptions.md R207): what a loaded image reads as, where the three bytes of a laid word lie, and which bytes a report
shows. -/

namespace Sys2Proof.Machine

/-! ## Reset (R42, R252) -/

/-- A loaded image reads as its bytes from its start on, and beyond them as the memory did before. -/
theorem Memory.read_load (image : List Byte) (start : Nat) (m : Memory) (a : Nat) :
    (Memory.load image start m).read a = if start ≤ a then image.getD (a - start) (m.read a) else m.read a := by
  induction image generalizing start m with
  | nil => simp [Memory.load]
  | cons v rest ih =>
    rw [Memory.load, ih, Memory.read_write]
    obtain hlt | rfl | hgt := lt_trichotomy a start
    · rw [if_neg (by omega), if_neg (by omega), if_neg (by omega)]
    · simp
    · rw [if_pos (by omega), if_neg (by omega), if_pos (by omega), show a - start = a - (start + 1) + 1 by omega,
        List.getD_cons_succ]

theorem boot_reg (c : Config) (image : List Byte) (inputs : List Input) (r : Fin 8) :
    (State.boot c image inputs).reg r = if r = 7 then c.spInit else 0#8 := by
  fin_cases r <;> rfl

/-- Settles O1: the fields of the reset state, and its memory by what a loaded image reads as. -/
theorem bootEstablishesResetState : Obligations.BootEstablishesResetState := by
  intro c image inputs _
  refine ⟨fun r hr => ?_, boot_reg c image inputs 7, rfl, rfl, rfl, rfl, fun a _ => ?_, rfl, rfl⟩
  · rw [boot_reg, if_neg hr]
  · exact (Memory.read_load image 0 [] a).trans (if_pos (Nat.zero_le a))

theorem boot_inv {c : Config} {image : List Byte} (inputs : List Input) (hc : c.Legal) (h : image.length ≤ 256) :
    (State.boot c image inputs).Inv :=
  ⟨hc, Memory.wf_load (m := []) rfl (by rwa [Nat.zero_add]), .of_running rfl⟩

/-- Settles O2: the default configuration and the empty image are one case of a legal boot. -/
theorem bootStateSatisfiesInvariant : Obligations.BootStateSatisfiesInvariant :=
  ⟨boot_inv [] Config.core_legal (Nat.zero_le _), fun _ _ inputs => boot_inv inputs⟩

/-! ## A word laid where the next cycle fetches (R80, R112) -/

theorem listInput_currentInput {s : State} (h : s.env.inputs.headD quietInput = quietInput) :
    currentInput (listInput s) = quietInput := by
  unfold listInput
  split
  · rfl
  · next hin =>
    rw [hin] at h
    rw [currentInput, hin]
    exact h

theorem listInput_keeps (s : State) : (∀ r, (listInput s).reg r = s.reg r) ∧ (listInput s).pc = s.pc ∧
    (listInput s).status = s.status ∧ (listInput s).env.config = s.env.config := by
  unfold listInput
  split <;> exact ⟨fun _ => rfl, rfl, rfl, rfl⟩

/-- Three bytes stored inside memory lie at consecutive addresses. -/
theorem read_storeBytes_three {a : Nat} (ha : a ≤ 253) (x y z : Byte) (m : Memory) :
    (storeBytes a [x, y, z] m).read a = x ∧ (storeBytes a [x, y, z] m).read (a + 1) = y ∧
      (storeBytes a [x, y, z] m).read (a + 2) = z := by
  have h0 : a < memSize := by unfold memSize; omega
  have h1 : a + 1 < memSize := by unfold memSize; omega
  have h2 : a + 2 < memSize := by unfold memSize; omega
  simp [storeBytes, h0, h1, h2, Nat.add_assoc]

theorem decode_of_decodeTableWord {nbits w : Nat} {i : Instr} (h : decodeTableWord nbits w = some i) :
    decode defaultOpc (tableByte nbits w 0) (tableByte nbits w 1) (tableByte nbits w 2) = .ok i := by
  unfold decodeTableWord at h
  split at h
  · next hd => rw [hd, Option.some.inj h]
  · cases h

/-- Settles O58: before and after the word is laid the cycle is quiet, so it fetches at `PC`, where the three bytes lie. -/
theorem withFetchWordRunsTheWord : Obligations.WithFetchWordRunsTheWord := by
  intro s nbits w i hs hquiet hopc hline hpc hword
  obtain ⟨hreg, hlpc, hstatus, hconfig⟩ := listInput_keeps s
  have hcur := listInput_currentInput hquiet
  have hlline : serviceable (listInput s) = 0#8 := by rwa [serviceable, hreg, hreg]
  have hfetch : fetchAddress (listInput s) = s.pc.toNat := by
    rw [fetchAddress, pollInterrupts_quiet hcur hlline]
    exact congrArg BitVec.toNat hlpc
  obtain ⟨h0, h1, h2⟩ := read_storeBytes_three hpc (tableByte nbits w 0) (tableByte nbits w 1) (tableByte nbits w 2)
    (listInput s).mem
  have hpoll := pollInterrupts_quiet (s := s.withFetchWord nbits w) hcur hlline
  have htpc : (sampled (s.withFetchWord nbits w)).pc = s.pc := hlpc
  have htmem : (sampled (s.withFetchWord nbits w)).mem = storeBytes s.pc.toNat
      [tableByte nbits w 0, tableByte nbits w 1, tableByte nbits w 2] (listInput s).mem := by
    rw [← hfetch]
    rfl
  have hdecode : decodeAt (sampled (s.withFetchWord nbits w)) = .ok i := by
    have htopc : (sampled (s.withFetchWord nbits w)).env.config.opc = defaultOpc :=
      (congrArg Config.opc hconfig).trans (hopc.trans Config.core_opc)
    rw [decodeAt, htopc, htpc, htmem, h0, h1, h2]
    exact decode_of_decodeTableWord hword
  have hfront := frontEnd_of_ok hpoll (by rwa [htpc]) hdecode
  rw [htpc, htmem, h0] at hfront
  exact step_of_frontEnd_ok (hstatus.trans hs) hfront

/-! ## The trace (R207) -/

/-- The bytes of the report: those from `PC` on, at most three, that memory has. -/
theorem report_bytes (s : State) :
    s.report.bytes = (List.range (min 3 (256 - s.pc.toNat))).map fun k => s.mem.read (s.pc.toNat + k) := by
  have hlt := s.pc.isLt
  obtain h | h | h : s.pc.toNat ≤ 253 ∨ s.pc.toNat = 254 ∨ s.pc.toNat = 255 := by omega
  · have h0 : s.pc.toNat < 256 := by omega
    have h1 : s.pc.toNat + 1 < 256 := by omega
    have h2 : s.pc.toNat + 2 < 256 := by omega
    have h3 : min 3 (256 - s.pc.toNat) = 3 := by omega
    simp [State.report, memSize, h0, h1, h2, h3, List.range_succ]
  · simp [State.report, memSize, h, List.range_succ]
  · simp [State.report, memSize, h, List.range_succ]

/-- Settles O59: `PC` and registers are the state's own, the bytes those of `report_bytes`. -/
theorem traceShowsTheExistingBytes : Obligations.TraceShowsTheExistingBytes := by
  intro s
  have hlen : s.report.bytes.length = min 3 (256 - s.pc.toNat) := by
    rw [report_bytes, List.length_map, List.length_range]
  refine ⟨rfl, fun _ => rfl, hlen, fun k hk => ?_⟩
  rw [hlen] at hk
  rw [report_bytes, List.getElem?_map, List.getElem?_range hk, Option.map_some]

end Sys2Proof.Machine
end
